-- ==== Sys2Proof/Word.lean ====
section
/-! DEFINITION. The bit-vector types of the machine, under the names 00_scope.md R7 gives the widths. -/

namespace Sys2Proof

/-- `u8`: a payload byte, an output byte, an 8-bit register (R7). -/
abbrev Byte := BitVec 8

/-- The 32-bit word of a register read or write, `REG_W` of R6. -/
abbrev Word := BitVec 32

/-- The 40-bit command header, `HDR_W` of R6. -/
abbrev Header := BitVec 40

/-- The 4-bit register address of CFG and RD (R62). -/
abbrev RegAddr := BitVec 4

/-- `f64`: a value of `CursorNum` (R6, R7). In the reference instance it is the IEEE 754 binary64 encoding,
64 bits (41_resampler.md R90). DESIGN CHOICE for another `CursorNum`: its values are 64-bit patterns too; the
spec gives no carrier for one (notes/assumptions/14.md). -/
abbrev F64 := BitVec 64

end Sys2Proof
end

