-- ==== Sys2Proof/Syntax.lean ====
section
/-! DEFINITION. The seven commands (30_encoding.md R61), the raw command on the CMD channel (20_memory.md
R41), and the pseudo-instructions of R74. -/

namespace Sys2Proof

/-- The complete command set (R61), one constructor per row of spec/opcode_table.json. Only the operands
a command uses are kept (R64). -/
inductive Instr where
  /-- RST, reset the core (44_commands.md R121). -/
  | rst
  /-- CFG, write `value` to the register at `addr` (R123). -/
  | cfg (addr : RegAddr) (value : Word)
  /-- RD, read the register at `addr` (R125). -/
  | rd (addr : RegAddr)
  /-- START, begin a run (R127). -/
  | start
  /-- SAMPLE, present one Sample; `s` is the low byte of `data` (R129). -/
  | sample (s : Byte)
  /-- FRAME, present one PCM frame (R131). -/
  | frame (payload : List Byte)
  /-- END, end of stream (R132). -/
  | endRun
  deriving DecidableEq, Repr

/-- One transaction on CMD: a 40-bit header and the payload that the channel frames with it (R41, R60). -/
structure Command where
  header : Header
  payload : List Byte
  deriving DecidableEq, Repr

/-- The pseudo-instructions of R74, with the operands as the assembler reads them. -/
inductive Pseudo where
  /-- `SAMPLES s0, ..., sk` -/
  | samples (ss : List Int)
  /-- `ENCODE s0, ..., sk` -/
  | encode (ss : List Int)
  /-- `FRAME8 u0, ..., u(C-1)` -/
  | frame8 (us : List Nat)
  /-- `FRAME16 v0, ..., v(C-1)` -/
  | frame16 (vs : List Int)
  /-- `SETUP sr, tr, c, w` -/
  | setup (sr tr c w : Nat)
  deriving DecidableEq, Repr

end Sys2Proof
end

