-- ==== Sys2Proof/WellFormed.lean ====
section
/-! DEFINITION. Static checks: legal commands (R69), canonical headers (R64, R41), operand ranges of the
pseudo-instructions (R73, R74). Execution never depends on them: the machine gives an ill-formed command
the refusal the spec names. -/

namespace Sys2Proof

/-- No reserved encoding of R69: CFG to addresses 0 to 3, RD of addresses 0 to 9. The operand types have
exactly the field widths of R60, so nothing else can be wrong. -/
def Instr.wellFormed : Instr → Bool
  | .rst => true
  | .cfg addr _ => decide (addr.toNat ≤ 3)
  | .rd addr => decide (addr.toNat ≤ 9)
  | .start => true
  | .sample _ => true
  | .frame _ => true
  | .endRun => true

/-- The command is what an assembler writes (R64, R73): `rsv` is 0 and `op` is not 7; `addr` is 0 but for
CFG and RD, `data` is 0 but for CFG and the low byte of SAMPLE; only FRAME has a payload (R41). -/
def Command.canonical (c : Command) : Bool :=
  let op := (c.header.extractLsb' 0 3).toNat
  !c.header.getLsbD 3
    && decide (op ≠ 7)
    && (decide (op = 1 ∨ op = 2) || c.header.extractLsb' 4 4 == 0)
    && (decide (op = 1) || c.header.extractLsb' 16 24 == 0)
    && (decide (op = 1 ∨ op = 4) || c.header.extractLsb' 8 8 == 0)
    && (decide (op = 5) || c.payload.isEmpty)

/-- The operand ranges of R73 and R74. -/
def Pseudo.wellFormed : Pseudo → Bool
  | .samples ss => ss.all fun s => decide (-128 ≤ s ∧ s ≤ 127)
  | .encode ss => ss.all fun s => decide (-128 ≤ s ∧ s ≤ 127)
  | .frame8 us => us.all fun u => decide (u ≤ 255)
  | .frame16 vs => vs.all fun v => decide (-32768 ≤ v ∧ v ≤ 32767)
  | .setup sr tr c w => [sr, tr, c, w].all fun v => decide (v ≤ 4294967295)

end Sys2Proof
end

