-- ==== Sys2Proof/Decode.lean ====
section
/-! DEFINITION. The decoder (30_encoding.md R60 to R64, R69 to R71), the encoder of the same fields, the
words of the opcode table, and the expansion of the pseudo-instructions (R73, R74). -/

namespace Sys2Proof

/-- `op`, header bits 2:0 (R60). -/
def Header.op (h : Header) : BitVec 3 := h.extractLsb' 0 3
/-- `rsv`, header bit 3 (R60). -/
def Header.rsv (h : Header) : Bool := h.getLsbD 3
/-- `addr`, header bits 7:4 (R60, R62). -/
def Header.addr (h : Header) : RegAddr := h.extractLsb' 4 4
/-- `data`, header bits 39:8 (R60). -/
def Header.data (h : Header) : Word := h.extractLsb' 8 32
/-- The sample byte of SAMPLE, header bits 15:8 (R63). -/
def Header.sampleByte (h : Header) : Byte := h.extractLsb' 8 8

/-- Why a header has no command (R69). -/
inductive Reserved where
  /-- `rsv` = 1, whatever the other bits are -/
  | rsvBit
  /-- `op` = 7 -/
  | opSeven
  deriving DecidableEq, Repr

/-- The verdict of the decoder (R71). -/
inductive Decoded where
  | ok (i : Instr)
  | reserved (why : Reserved)
  deriving DecidableEq, Repr

/-- R71: total on every 40-bit header; matches on `H[3:0]` alone (R64). The payload belongs to FRAME and
is ignored with every other command (R41). -/
def decode (c : Command) : Decoded :=
  if c.header.rsv then .reserved .rsvBit
  else match c.header.op.toNat with
    | 0 => .ok .rst
    | 1 => .ok (.cfg c.header.addr c.header.data)
    | 2 => .ok (.rd c.header.addr)
    | 3 => .ok .start
    | 4 => .ok (.sample c.header.sampleByte)
    | 5 => .ok (.frame c.payload)
    | 6 => .ok .endRun
    | _ => .reserved .opSeven

/-- A header from its four fields (R60). -/
def Header.ofFields (data : Word) (addr : RegAddr) (op : BitVec 3) : Header :=
  data ++ addr ++ 0#1 ++ op

/-- The command an assembler writes for an instruction (R73): ignored fields 0 (R64). -/
def encode : Instr → Command
  | .rst => ⟨Header.ofFields 0 0 0, []⟩
  | .cfg addr value => ⟨Header.ofFields value addr 1, []⟩
  | .rd addr => ⟨Header.ofFields 0 addr 2, []⟩
  | .start => ⟨Header.ofFields 0 0 3, []⟩
  | .sample s => ⟨Header.ofFields (s.setWidth 32) 0 4, []⟩
  | .frame payload => ⟨Header.ofFields 0 0 5, payload⟩
  | .endRun => ⟨Header.ofFields 0 0 6, []⟩

/-- The command whose bits are `w`, numbered as spec/opcode_table.json numbers them: the header is bits
39:0; each further whole byte is a payload byte, payload[0] lowest (DESIGN CHOICE,
notes/assumptions/3.md: the spec fixes no serialisation, R46). -/
def commandOfBits (nbits w : Nat) : Command :=
  let v := w % 2 ^ nbits
  ⟨BitVec.ofNat 40 v,
    (List.range ((nbits - 40) / 8)).map fun k => BitVec.ofNat 8 (v / 2 ^ (40 + 8 * k))⟩

/-- The instruction the decoder reads from an opcode-table word of `nbits` bits; none where it refuses. -/
def decodeTableWord (nbits w : Nat) : Option Instr :=
  match decode (commandOfBits nbits w) with
  | .ok i => some i
  | .reserved _ => none

/-- The low byte of `v mod 65536` and then its high byte: one channel sample of FRAME16 (R74). -/
def bytesOfSample16 (v : Int) : List Byte :=
  let w : BitVec 16 := BitVec.ofInt 16 v
  [w.extractLsb' 0 8, w.extractLsb' 8 8]

/-- The expansion of a pseudo-instruction (R74). -/
def Pseudo.expand : Pseudo → List Instr
  | .samples ss => ss.map fun s => .sample (BitVec.ofInt 8 s)
  | .encode ss => .start :: (ss.map fun s => .sample (BitVec.ofInt 8 s)) ++ [.endRun]
  | .frame8 us => [.frame (us.map (BitVec.ofNat 8))]
  | .frame16 vs => [.frame (vs.flatMap bytesOfSample16)]
  | .setup sr tr c w =>
    [.cfg 0 (BitVec.ofNat 32 sr), .cfg 1 (BitVec.ofNat 32 tr), .cfg 2 (BitVec.ofNat 32 c),
      .cfg 3 (BitVec.ofNat 32 w)]

end Sys2Proof
end

