-- ==== Sys2Proof/Config.lean ====
section
/-! DEFINITION. What an implementation fixes (00_scope.md R5, R6) and the free values of the model. -/

namespace Sys2Proof

/-- Rounding of the two integer divisions of SF, parameter `DIV_MODE` (R6, R82). -/
inductive DivMode where
  /-- toward negative infinity, the reference value -/
  | floor
  /-- toward zero, the alternative kept by 92_eei_decisions.md D10 -/
  | trunc
  deriving DecidableEq, Repr

/-- The number format of the SRC cursor, parameter `CursorNum`: the five operations of 41_resampler.md
R90 as one record. DESIGN CHOICE: every format is carried by 64-bit patterns (notes/assumptions/14.md). -/
structure CursorNum where
  /-- `of_nat(k)` -/
  ofNat : Nat → F64
  /-- `fdiv(a, b)` -/
  fdiv : F64 → F64 → F64
  /-- `fadd(a, b)` -/
  fadd : F64 → F64 → F64
  /-- `flt(a, b)` -/
  flt : F64 → F64 → Bool
  /-- `ffloor(a)` -/
  ffloor : F64 → Nat

/-- The three parameters a model may take as arguments (R6). They are not state (10_state.md R10). -/
structure Config where
  /-- `HAS_SF`: the sample formatter is present (D16). -/
  hasSF : Bool
  /-- `DIV_MODE` (D10). -/
  divMode : DivMode
  /-- `CursorNum` (D5). -/
  cursor : CursorNum

/-! R5: constants the document fixes; they are no parameters. -/

/-- `SAMPLE_MIN` (R5). -/
def sampleMin : Int := -128
/-- `SAMPLE_MAX` (R5). -/
def sampleMax : Int := 127
/-- `STRENGTH_MIN` (R5). -/
def strengthMin : Int := 0
/-- `STRENGTH_MAX` (R5). -/
def strengthMax : Int := 63
/-- `STEP_SHIFT` (R5). -/
def stepShift : Nat := 2
/-- `STEP_BIAS` (R5). -/
def stepBias : Int := 2
/-- `PCM16_DIV` (R5). -/
def pcm16Div : Int := 256
/-- `PCM8_OFFSET` (R5). -/
def pcm8Offset : Int := 128
/-- `TGT_RATE_DEFAULT` (R5). -/
def tgtRateDefault : Word := 48000

/-- `+0.0`, the reset and START value of the cursor (R15): in binary64 the pattern with every bit 0.
DESIGN CHOICE for another `CursorNum`: its zero is the same pattern (notes/assumptions/10.md). -/
def posZero : F64 := 0

/-- The first length of a run the spec gives no meaning to: 2^53 input samples (70_reset_and_hazards.md
R170; 93_implementation_defined.md U8). -/
def runLimit : Nat := 2 ^ 53

/-! Free values. R90 states the operations of `CursorNum` on non-negative finite values only. What they
give outside that domain is open; no body is given, so no proof can rest on a value
(notes/assumptions/9.md). Safe: whatever is proved holds for every choice. -/

/-- Free value: a sum with an operand outside the domain of R90. -/
opaque Config.openSum : F64 → F64 → F64
/-- Free value: a quotient with an operand outside the domain of R90, or by zero. -/
opaque Config.openQuotient : F64 → F64 → F64
/-- Free value: a comparison with an operand outside the domain of R90. -/
opaque Config.openLess : F64 → F64 → Bool
/-- Free value: the floor of an operand outside the domain of R90. -/
opaque Config.openFloor : F64 → Nat

end Sys2Proof
end

