-- ==== Sys2Proof/Machine/State.lean ====
section
/-! DEFINITION. The state of the core as plain data (10_state.md), the value after reset (R32), and the two
closed types of reasons a step can stop. -/

namespace Sys2Proof.Machine

/-- The document's EncoderState, the registers of ADM (10_state.md R11 to R14). -/
structure EncoderState where
  /-- `charge : s8`, two's complement (R11) -/
  charge : BitVec 8
  /-- `strength : u6` (R12) -/
  strength : BitVec 6
  /-- `prev`, the document's previousBit (R13) -/
  prev : Bool
  deriving DecidableEq, Repr

/-- The document's BitStream less OUT, the registers of BP (R18, R19). -/
structure BitStream where
  /-- `acc : u8`, the byte being assembled -/
  acc : Byte
  /-- `bitpos : u3`, the number of bits already placed in `acc` -/
  bitpos : BitVec 3
  deriving DecidableEq, Repr

/-- The registers of SRC (R15 to R17). -/
structure Cursor where
  /-- `idx : f64`, the floating cursor -/
  idx : F64
  /-- `n : nat`, the index of the next input sample of the run -/
  n : Nat
  /-- `ratio : f64`, latched at START -/
  ratio : F64
  deriving DecidableEq, Repr

/-- The configuration registers, addresses 0x0 to 0x3 of R20. -/
structure ConfigRegs where
  /-- SRC_RATE (R21) -/
  srcRate : Word
  /-- TGT_RATE (R22) -/
  tgtRate : Word
  /-- CHANNELS (R23) -/
  channels : Byte
  /-- WIDTH (R25) -/
  width : Byte
  deriving DecidableEq, Repr

/-- The operating mode, STATUS bit 0 (R24, R26). -/
inductive Mode where
  | idle
  | run
  deriving DecidableEq, Repr

/-- The five error codes (60_exceptions.md R143); no other is ever produced (93_implementation_defined.md
U11). -/
inductive ErrCode where
  /-- 1, ERR_OP -/
  | op
  /-- 2, ERR_MODE -/
  | mode
  /-- 3, ERR_ADDR -/
  | addr
  /-- 4, ERR_CFG -/
  | cfg
  /-- 5, ERR_LEN -/
  | len
  deriving DecidableEq, Repr

/-- The fields behind STATUS (R26). -/
structure Status where
  /-- MODE, bit 0 -/
  mode : Mode
  /-- W_UNSUP, bit 1 -/
  wUnsup : Bool
  /-- ERR, bits 7:4: the code of the first refused command since reset, if any -/
  err : Option ErrCode
  deriving DecidableEq, Repr

/-- The channels of 20_memory.md R41 to R43. They are NOT state of the core (10_state.md R10, R32): the
model carries them beside it because a step is a function of one state (notes/assumptions/1.md). -/
structure Channels where
  /-- CMD: the commands still to come, oldest first -/
  cmd : List Command
  /-- OUT: the bytes pushed so far, oldest first -/
  out : List Byte
  /-- RESP: the words delivered so far, oldest first -/
  resp : List Word
  deriving DecidableEq, Repr

/-- Everything the spec gives the core (10_state.md R11 to R26), by sub-block, and the channels. -/
structure State where
  /-- ADM -/
  enc : EncoderState
  /-- BP -/
  bits : BitStream
  /-- SRC -/
  cur : Cursor
  /-- SRC_RATE, TGT_RATE, CHANNELS, WIDTH -/
  regs : ConfigRegs
  /-- STATUS -/
  status : Status
  /-- CMD, OUT, RESP -/
  chan : Channels
  deriving DecidableEq, Repr

/-- Why the machine stops in a fault. -/
inductive Fault where
  /-- SAMPLE or FRAME hangs in SRC.STEP (70_reset_and_hazards.md R168): the command never completes and no
  later command is ever executed. `frozen` is the state in which the endless loop was recognised, with the
  bytes pushed up to there on OUT; from it the core takes turn after turn (`Sys2Proof.Machine.srcTurn`), each
  forwarding `sample` once more, for ever. Raised by SAMPLE and FRAME only. SAFE: neither a completed step nor
  a refusal (notes/assumptions/4.md). -/
  | srcHang (frozen : State) (sample : Int)
  deriving DecidableEq, Repr

/-- Why the model gives a command no meaning. The refusals of the SPEC (R140) are no refusals here: they
are next states that record an error code. -/
inductive Refusal where
  /-- An arm of exec that has no meaning yet. No arm of this model is refused so. Safe. -/
  | notModelled (mnemonic : String)
  /-- SAMPLE or FRAME would make the run 2^53 or more input samples long: the spec gives such a run no
  meaning (R170; 93_implementation_defined.md U8 says refuse). Safe (notes/assumptions/5.md). -/
  | runTooLong
  deriving DecidableEq, Repr

/-- The initial EncoderState: "charge = 0, strength = 0, previousBit = false" (R32, R33). -/
def EncoderState.initial : EncoderState := ⟨0, 0, false⟩

/-- The zeroed bit buffer (R32, R33). -/
def BitStream.empty : BitStream := ⟨0, 0⟩

/-- The state after hardware reset, every register at its value of 10_state.md R32. The channels hold
nothing yet. -/
def State.reset : State where
  enc := EncoderState.initial
  bits := BitStream.empty
  cur := ⟨posZero, 0, posZero⟩
  regs := ⟨0, tgtRateDefault, 0, 0⟩
  status := ⟨.idle, false, none⟩
  chan := ⟨[], [], []⟩

end Sys2Proof.Machine
end

