-- ==== Sys2Proof/Machine/Flags.lean ====
section
/-! DEFINITION. STATUS and its fields (10_state.md R26, R28): how each is read and written. No command has
condition codes (R28). -/

namespace Sys2Proof.Machine

/-- MODE as STATUS bit 0: IDLE 0, RUN 1 (R24, R26). -/
def Mode.code : Mode → Word
  | .idle => 0
  | .run => 1

/-- The four-bit code of ERR (R26, 60_exceptions.md R143). -/
def ErrCode.code : ErrCode → Word
  | .op => 1
  | .mode => 2
  | .addr => 3
  | .cfg => 4
  | .len => 5

/-- The value of the ERR field: 0 for none. -/
def errField : Option ErrCode → Word
  | none => 0
  | some e => e.code

/-- The word RD STATUS delivers (R26): MODE in bit 0, W_UNSUP in bit 1, ERR in bits 7:4, all else 0. -/
def Status.word (f : Status) : Word :=
  f.mode.code ||| (if f.wUnsup then 2 else 0) ||| (errField f.err <<< 4)

/-- Sticky ERR: the first code is kept (R141). -/
def Status.recordErr (f : Status) (e : ErrCode) : Status :=
  match f.err with
  | none => { f with err := some e }
  | some _ => f

/-- `mode <- M` (R8, R24). -/
def Status.setMode (f : Status) (m : Mode) : Status := { f with mode := m }

/-- `W_UNSUP <- b` (R26). -/
def Status.setWUnsup (f : Status) (b : Bool) : Status := { f with wUnsup := b }

end Sys2Proof.Machine
end

