-- ==== Sys2Proof/Machine/Ops.lean ====
section
/-! DEFINITION. The named operations on registers and channels, and the refusal: the one operation that
stands in the place of taking an exception (00_scope.md R8; 60_exceptions.md R140). There is no memory
(20_memory.md R40) and no return from a refusal (R142). -/

namespace Sys2Proof.Machine

/-- `OutPush` of the bytes one operation pushes, in order (R8, 20_memory.md R42): OUT is append-only. -/
def State.outPush (s : State) (bytes : List Byte) : State :=
  { s with chan := { s.chan with out := s.chan.out ++ bytes } }

/-- `Resp(v)` (R8, 20_memory.md R43). -/
def State.respond (s : State) (v : Word) : State :=
  { s with chan := { s.chan with resp := s.chan.resp ++ [v] } }

/-- CMD becomes `rest` (20_memory.md R41). -/
def State.setCommands (s : State) (rest : List Command) : State :=
  { s with chan := { s.chan with cmd := rest } }

/-- The core takes the oldest command off CMD; none while the host has issued none (R41). -/
def State.fetch (s : State) : Option (Command × State) :=
  match s.chan.cmd with
  | [] => none
  | c :: rest => some (c, s.setCommands rest)

/-- The host issues `c` so that it is the next command (R41; notes/assumptions/3.md). -/
def State.issue (s : State) (c : Command) : State := s.setCommands (c :: s.chan.cmd)

/-- `refuse <ERR>` (R140, R141): nothing changes but ERR, and ERR only if it was 0. Execution goes on with
the next command. -/
def refuse (e : ErrCode) (s : State) : State :=
  { s with status := s.status.recordErr e }

/-- A refused command's outcome: the machine goes on (R140). -/
def refused (e : ErrCode) (s : State) : Host.Outcome State Fault Refusal := .next (refuse e s)

/-- `mode <- M` (R8). -/
def State.setMode (s : State) (m : Mode) : State := { s with status := s.status.setMode m }

/-- `W_UNSUP <- b` (R26). -/
def State.setWUnsup (s : State) (b : Bool) : State := { s with status := s.status.setWUnsup b }

/-- `x[a]` as a 32-bit word, the register map of 10_state.md R20; none for the reserved addresses. -/
def readReg (a : RegAddr) (s : State) : Option Word :=
  match a.toNat with
  | 0 => some s.regs.srcRate
  | 1 => some s.regs.tgtRate
  | 2 => some (s.regs.channels.setWidth 32)
  | 3 => some (s.regs.width.setWidth 32)
  | 4 => some s.status.word
  | 5 => some (s.enc.charge.signExtend 32)
  | 6 => some (s.enc.strength.setWidth 32)
  | 7 => some (if s.enc.prev then 1 else 0)
  | 8 => some (s.bits.bitpos.setWidth 32)
  | 9 => some (s.bits.acc.setWidth 32)
  | _ => none

/-- `x[a] <- value` for the four writable registers (R20); none for every other address. CHANNELS and WIDTH
take the low 8 bits: CFG has refused a value above 255 (R123). -/
def writeReg (a : RegAddr) (value : Word) (r : ConfigRegs) : Option ConfigRegs :=
  match a.toNat with
  | 0 => some { r with srcRate := value }
  | 1 => some { r with tgtRate := value }
  | 2 => some { r with channels := value.setWidth 8 }
  | 3 => some { r with width := value.setWidth 8 }
  | _ => none

/-- CHANNELS or WIDTH, the two 8-bit registers of R20. -/
def isByteReg (a : RegAddr) : Bool := decide (a.toNat = 2 ∨ a.toNat = 3)

end Sys2Proof.Machine
end

