-- ==== Sys2Proof/Machine/RegisterCommands.lean ====
section
/-! DEFINITION. CFG and RD (44_commands.md R123, R125). -/

namespace Sys2Proof.Machine

/-- CFG (R123): the checks in the order of the rule, then the write. -/
def execCfg (addr : RegAddr) (value : Word) (s : State) : Host.Outcome State Fault Refusal :=
  if s.status.mode = .run then refused .mode s
  else match writeReg addr value s.regs with
    | none => refused .addr s
    | some r => if isByteReg addr && decide (value.toNat > 255) then refused .cfg s else .next { s with regs := r }

/-- RD (R125): one word on RESP, no side effect; reserved addresses are refused. -/
def execRd (addr : RegAddr) (s : State) : Host.Outcome State Fault Refusal :=
  match readReg addr s with
  | none => refused .addr s
  | some v => .next (s.respond v)

end Sys2Proof.Machine
end

