-- ==== Sys2Proof/Machine/Binary64.lean ====
section
/-! DEFINITION. The reference instance of `CursorNum` (41_resampler.md R90): IEEE 754 binary64, round to
nearest, ties to even, on non-negative finite values. A value is handled as a natural number of units of
2^-1074, the smallest positive binary64, so every operation is exact natural arithmetic with one rounding. -/

namespace Sys2Proof.Machine

/-- The pattern of positive infinity; the patterns below it are the non-negative finite values, in order. -/
def f64Infinity : Nat := 0x7FF0000000000000

/-- The domain of R90: non-negative and finite. -/
def f64Real (x : F64) : Bool := decide (x.toNat < f64Infinity)

/-- 1.0 in units of 2^-1074. Irreducible: no tactic should write this number out. -/
@[irreducible] def f64Unit : Nat := 2 ^ 1074

/-- The value of a non-negative finite pattern in units of 2^-1074: fraction field `f`, exponent field `e`. -/
def f64Scaled (x : F64) : Nat :=
  let e := x.toNat / 2 ^ 52
  let f := x.toNat % 2 ^ 52
  if e = 0 then f else (2 ^ 52 + f) * 2 ^ (e - 1)

/-- The significand of `num / den` at `drop` bits above the unit, rounded to nearest, ties to even. -/
def f64Significand (num den drop : Nat) : Nat :=
  let d := den * 2 ^ drop
  let m := num / d
  let r := num % d
  if 2 * r > d ∨ (2 * r = d ∧ m % 2 = 1) then m + 1 else m

/-- The binary64 nearest to `num / den` units of 2^-1074, ties to even; infinity above the range. The
pattern of a value with significand `m` at `drop` bits is `drop * 2^52 + m`, also when `m` has carried to
2^53 and when it is below 2^52 (subnormal, `drop` = 0). -/
def f64Round (num den : Nat) : F64 :=
  let drop := Nat.log2 (num / den) - 52
  BitVec.ofNat 64 (min (drop * 2 ^ 52 + f64Significand num den drop) f64Infinity)

/-- `of_nat(k)` (R90): exact for k < 2^53. -/
def f64OfNat (k : Nat) : F64 := f64Round (k * f64Unit) 1

/-- `fadd(a, b)` (R90): the correctly rounded sum. -/
def f64Add (a b : F64) : F64 :=
  if f64Real a && f64Real b then f64Round (f64Scaled a + f64Scaled b) 1 else Config.openSum a b

/-- `fdiv(a, b)` (R90): the correctly rounded quotient, b never zero. -/
def f64Div (a b : F64) : F64 :=
  if f64Real a && f64Real b && decide (f64Scaled b ≠ 0) then
    f64Round (f64Scaled a * f64Unit) (f64Scaled b)
  else Config.openQuotient a b

/-- `flt(a, b)` (R90): less-than on the real values. -/
def f64Less (a b : F64) : Bool :=
  if f64Real a && f64Real b then decide (f64Scaled a < f64Scaled b) else Config.openLess a b

/-- `ffloor(a)` (R90): the exact floor of a non-negative finite value. -/
def f64Floor (a : F64) : Nat :=
  if f64Real a then f64Scaled a / f64Unit else Config.openFloor a

/-- The reference instance of `CursorNum` (R6, R90, D5). -/
def binary64 : CursorNum := ⟨f64OfNat, f64Div, f64Add, f64Less, f64Floor⟩

/-- The reference value of every parameter (R6): the machine that `exec` and `step` run. -/
def referenceConfig : Config := ⟨true, .floor, binary64⟩

end Sys2Proof.Machine
end

