-- ==== Sys2Proof/Machine/BitPacker.lean ====
section
/-! DEFINITION. BP, the LSB-first bit packer (43_bit_packer.md R110, R112). Each operation gives the new
registers and the bytes it pushes to OUT. -/

namespace Sys2Proof.Machine

/-- The buffer with the bit placed at `bitpos`; a false bit leaves the zero already there (R110). -/
def placeBit (b : BitStream) (bit : Bool) : Byte :=
  if bit then b.acc ||| (1#8 <<< b.bitpos.toNat) else b.acc

/-- BP.PUSH (R110): the eighth bit pushes the byte at once and zeroes the buffer. -/
def bpPush (b : BitStream) (bit : Bool) : BitStream × List Byte :=
  if b.bitpos = 7 then (BitStream.empty, [placeBit b bit])
  else (⟨placeBit b bit, b.bitpos + 1⟩, [])

/-- BP.FLUSH (R112): the partial byte, if there is one. -/
def bpFlush (b : BitStream) : BitStream × List Byte :=
  if b.bitpos ≠ 0 then (BitStream.empty, [b.acc]) else (b, [])

end Sys2Proof.Machine
end

