-- ==== Sys2Proof/Machine/Numeric.lean ====
section
/-! DEFINITION. The integer helpers of 00_scope.md R7. -/

namespace Sys2Proof.Machine

/-- `clamp(lo, hi, v)` on `int` (R7). -/
def clamp (lo hi v : Int) : Int :=
  if v < lo then lo else if v > hi then hi else v

/-- `idiv(a, b)`: floor division or the quotient rounded toward zero, as `DIV_MODE` selects (R7, R82). -/
def idiv : DivMode → Int → Int → Int
  | .floor, a, b => Int.fdiv a b
  | .trunc, a, b => Int.tdiv a b

end Sys2Proof.Machine
end

