-- ==== Sys2Proof/Machine/DeltaEncoder.lean ====
section
/-! DEFINITION. ADM, the adaptive delta-modulation encoder (42_delta_encoder.md R100 to R105). -/

namespace Sys2Proof.Machine

/-- Step 1 (R101): strictly greater, signed. -/
def admBit (e : EncoderState) (sample : Int) : Bool := decide (sample > e.charge.toInt)

/-- Step 2 (R102): one up if the bit repeats, else one down, then the clamp to [0, 63]. -/
def admStrength (e : EncoderState) (bit : Bool) : Int :=
  clamp strengthMin strengthMax
    (if bit = e.prev then (e.strength.toNat : Int) + 1 else (e.strength.toNat : Int) - 1)

/-- Step 3 (R103): `(strength << 2) + 2`. -/
def admChange (strength : Int) : Int := strength * 2 ^ stepShift + stepBias

/-- Step 4 (R104): up by `change` for a 1, down for a 0, on `int`, then the clamp to [-128, 127]. -/
def admCharge (e : EncoderState) (bit : Bool) (change : Int) : Int :=
  clamp sampleMin sampleMax (if bit then e.charge.toInt + change else e.charge.toInt - change)

/-- ADM.STEP (R100): the new EncoderState and the emitted bit. The change uses the NEW strength. -/
def admStep (e : EncoderState) (sample : Int) : EncoderState × Bool :=
  let bit := admBit e sample
  let strength := admStrength e bit
  let charge := admCharge e bit (admChange strength)
  (⟨BitVec.ofInt 8 charge, BitVec.ofInt 6 strength, bit⟩, bit)

end Sys2Proof.Machine
end

