-- ==== Sys2Proof/Machine/Resampler.lean ====
section
/-! DEFINITION. SRC, the point-sample rate converter (41_resampler.md R91, R93), and Forward, its link to
the encoder and the packer (44_commands.md R128). -/

namespace Sys2Proof.Machine

/-- `Forward(s)` = `BP.PUSH(ADM.STEP(s))` (R128). -/
def forward (sample : Int) (s : State) : State :=
  let e := admStep s.enc sample
  let b := bpPush s.bits e.2
  { s with enc := e.1, bits := b.1 }.outPush b.2

/-- SRC.RATIO (R91): `fdiv(of_nat(SRC_RATE), of_nat(TGT_RATE))`. -/
def srcRatio (c : CursorNum) (r : ConfigRegs) : F64 :=
  c.fdiv (c.ofNat r.srcRate.toNat) (c.ofNat r.tgtRate.toNat)

/-- `idx <- v`. -/
def State.setIdx (s : State) (v : F64) : State := { s with cur := { s.cur with idx := v } }

/-- `n <- n + 1` (R93). -/
def State.nextIndex (s : State) : State := { s with cur := { s.cur with n := s.cur.n + 1 } }

/-- How SRC.STEP ends: it returns, or it never does (R93 (e), 70_reset_and_hazards.md R168). -/
inductive SrcResult where
  | done (s : State)
  /-- the state in which the endless loop was recognised -/
  | hang (frozen : State)
  deriving DecidableEq, Repr

/-- One turn of the `while` of SRC.STEP (R93): `Forward(s)`, then `idx <- fadd(idx, ratio)`. -/
def srcTurn (c : CursorNum) (sample : Int) (s : State) : State :=
  (forward sample s).setIdx (c.fadd s.cur.idx s.cur.ratio)

/-- `k` turns, whatever the loop's condition says: what a hang does for ever (R168). -/
def srcTurns (c : CursorNum) (sample : Int) : Nat → State → State
  | 0, s => s
  | k + 1, s => srcTurns c sample k (srcTurn c sample s)

/-- The `while` of SRC.STEP (R93). It hangs as soon as `fadd(idx, ratio)` returns `idx`. The fuel bounds
the recursion; `srcStep` gives it one turn for each of the 2^64 cursor patterns, so a loop that uses it up
has met a pattern twice and never ends: out of fuel IS a hang (notes/assumptions/8.md). -/
def srcLoop (c : CursorNum) (sample : Int) : Nat → State → SrcResult
  | 0, s => .hang s
  | fuel + 1, s =>
    if c.ffloor s.cur.idx = s.cur.n then
      if c.fadd s.cur.idx s.cur.ratio = s.cur.idx then .hang s
      else srcLoop c sample fuel (srcTurn c sample s)
    else .done s

/-- One turn for each cursor pattern. -/
def srcFuel : Nat := 2 ^ 64

/-- SRC.STEP (R93): once under equal rates, else the loop; then the index advances. -/
def srcStep (c : CursorNum) (sample : Int) (s : State) : SrcResult :=
  if s.regs.srcRate = s.regs.tgtRate then .done (forward sample s).nextIndex
  else match srcLoop c sample srcFuel s with
    | .done t => .done t.nextIndex
    | .hang t => .hang t

/-- The Sample `sample` presented to the SRC by SAMPLE or FRAME: refused where the run would reach 2^53
input samples (R170, 93_implementation_defined.md U8), a fault where the loop hangs (R168). -/
def present (c : CursorNum) (sample : Int) (s : State) : Host.Outcome State Fault Refusal :=
  if s.cur.n + 1 ≥ runLimit then .refused .runTooLong
  else match srcStep c sample s with
    | .done t => .next t
    | .hang t => .fault (.srcHang t sample)

end Sys2Proof.Machine
end

