-- ==== Sys2Proof/Machine/Operands.lean ====
section
/-! DEFINITION. The operand forms: the sample byte of SAMPLE (30_encoding.md R63) and the channel samples
of a FRAME payload in its three formats (R65 to R67; 40_sample_source.md R80, R81, R83). -/

namespace Sys2Proof.Machine

/-- SAMPLE's operand: `sext_8(H[15:8])` (R63). -/
def sampleOperand (s : Byte) : Int := s.toInt

/-- SF.CONV8 (R80): `zext_8(b) - 128`. -/
def conv8 (b : Byte) : Int := (b.toNat : Int) - pcm8Offset

/-- The little-endian signed 16-bit number of a byte pair, `sext_16(hi ++ lo)` (20_memory.md R44, R66). -/
def pcm16 (lo hi : Byte) : Int := (hi ++ lo : BitVec 16).toInt

/-- SF.CONV16 (R81): `idiv(v, 256)`. -/
def conv16 (mode : DivMode) (lo hi : Byte) : Int := idiv mode (pcm16 lo hi) pcm16Div

/-- SF.CONVX (R83): a channel sample under an unsupported width is 0. -/
def convX : Int := 0

/-- The byte pairs of a WIDTH 16 payload, `payload[2c]` and `payload[2c+1]`, each reduced (R66, R85). -/
def conv16Pairs (mode : DivMode) : List Byte → List Int
  | lo :: hi :: rest => conv16 mode lo hi :: conv16Pairs mode rest
  | _ => []

/-- The per-channel Samples `s[0 .. C-1]` of SF.FRAME (R85). The payload has passed FRAME's length check,
so it holds exactly the C channel samples under WIDTH 8 and 16; under another WIDTH it is not read (R67). -/
def channelSamples (mode : DivMode) (payload : List Byte) (c w : Nat) : List Int :=
  if w = 8 then payload.map conv8
  else if w = 16 then conv16Pairs mode payload
  else List.replicate c convX

/-- WIDTH is one of the two supported formats (10_state.md R25). -/
def widthSupported (w : Nat) : Bool := decide (w = 8 ∨ w = 16)

end Sys2Proof.Machine
end

