-- ==== Sys2Proof/Machine/SampleFormatter.lean ====
section
/-! DEFINITION. SF, the sample formatter (40_sample_source.md). -/

namespace Sys2Proof.Machine

/-- SF.DOWNMIX (R84): the sum of the channel Samples divided by `c` = CHANNELS ≥ 1. -/
def downmix (mode : DivMode) (samples : List Int) (c : Nat) : Int :=
  idiv mode samples.sum c

/-- SF.FRAME (R85): width reduction first, averaging second. -/
def frameSample (mode : DivMode) (payload : List Byte) (c w : Nat) : Int :=
  downmix mode (channelSamples mode payload c w) c

end Sys2Proof.Machine
end

