-- ==== Sys2Proof/Machine/RunCommands.lean ====
section
/-! DEFINITION. SAMPLE and FRAME (44_commands.md R129, R131). -/

namespace Sys2Proof.Machine

/-- SAMPLE under any Config (R129). -/
def sampleWith (cfg : Config) (b : Byte) (s : State) : Host.Outcome State Fault Refusal :=
  if s.status.mode = .idle then refused .mode s
  else present cfg.cursor (sampleOperand b) s

/-- SAMPLE. -/
def execSample (b : Byte) (s : State) : Host.Outcome State Fault Refusal := sampleWith referenceConfig b s

/-- ERR_LEN's condition (R131, R143, 20_memory.md R47): no whole frame under WIDTH 8 or 16. -/
def frameLengthWrong (payload : List Byte) (r : ConfigRegs) : Bool :=
  decide (r.width.toNat = 8 ∧ payload.length ≠ r.channels.toNat
    ∨ r.width.toNat = 16 ∧ payload.length ≠ 2 * r.channels.toNat)

/-- `if WIDTH != 8 and WIDTH != 16: W_UNSUP <- 1` (R131). -/
def flagWidth (s : State) : State :=
  if widthSupported s.regs.width.toNat then s else s.setWUnsup true

/-- FRAME under any Config (R131): the checks in the order of the rule, the flag, SF.FRAME, SRC.STEP. -/
def frameWith (cfg : Config) (payload : List Byte) (s : State) : Host.Outcome State Fault Refusal :=
  if !cfg.hasSF then refused .op s
  else if s.status.mode = .idle then refused .mode s
  else if s.regs.channels = 0 then refused .cfg s
  else if frameLengthWrong payload s.regs then refused .len s
  else
    present cfg.cursor
      (frameSample cfg.divMode payload s.regs.channels.toNat s.regs.width.toNat) (flagWidth s)

/-- FRAME. -/
def execFrame (payload : List Byte) (s : State) : Host.Outcome State Fault Refusal :=
  frameWith referenceConfig payload s

end Sys2Proof.Machine
end

