-- ==== Sys2Proof/Machine/SystemCommands.lean ====
section
/-! DEFINITION. RST, START and END (44_commands.md R121, R127, R132). A meaning that uses a parameter of
00_scope.md R6 is written for any Config and run with the reference one. -/

namespace Sys2Proof.Machine

/-- RST (R121): every register takes its reset value. OUT and RESP are no registers of the core: nothing is
retracted or pushed (R32). -/
def execRst (s : State) : Host.Outcome State Fault Refusal :=
  .next { State.reset with chan := s.chan }

/-- The accepted START (R127): fresh EncoderState, cursor and bit buffer, the ratio latched, mode RUN. -/
def beginRun (c : CursorNum) (s : State) : State :=
  { s with
    enc := EncoderState.initial
    bits := BitStream.empty
    cur := ⟨posZero, 0, srcRatio c s.regs⟩
    status := (s.status.setWUnsup false).setMode .run }

/-- START under any Config (R127). -/
def startWith (cfg : Config) (s : State) : Host.Outcome State Fault Refusal :=
  if s.status.mode = .run then refused .mode s
  else if s.regs.srcRate = 0 ∨ s.regs.tgtRate = 0 then refused .cfg s
  else .next (beginRun cfg.cursor s)

/-- START. -/
def execStart (s : State) : Host.Outcome State Fault Refusal := startWith referenceConfig s

/-- The accepted END (R132): BP.FLUSH, then mode IDLE. -/
def finishRun (s : State) : State :=
  let b := bpFlush s.bits
  ({ s with bits := b.1 }.outPush b.2).setMode .idle

/-- END (R132). -/
def execEnd (s : State) : Host.Outcome State Fault Refusal :=
  if s.status.mode = .idle then refused .mode s else .next (finishRun s)

end Sys2Proof.Machine
end

