-- ==== Sys2Proof/Machine/Dispatch.lean ====
section
/-! DEFINITION. One arm per command of 30_encoding.md R61. -/

namespace Sys2Proof.Machine

def exec (i : Instr) (s : State) : Host.Outcome State Fault Refusal :=
  match i with
  | .rst => Sys2Proof.Machine.execRst s
  | .cfg addr value => Sys2Proof.Machine.execCfg addr value s
  | .rd addr => Sys2Proof.Machine.execRd addr s
  | .start => Sys2Proof.Machine.execStart s
  | .sample b => Sys2Proof.Machine.execSample b s
  | .frame payload => Sys2Proof.Machine.execFrame payload s
  | .endRun => Sys2Proof.Machine.execEnd s

end Sys2Proof.Machine
end

