-- ==== Sys2Proof/Machine/Issue.lean ====
section
/-! DEFINITION. One command of CMD, decoded and executed (44_commands.md R120). -/

namespace Sys2Proof.Machine

/-- R120: decode, then execute. A reserved header is refused with ERR_OP (30_encoding.md R69,
60_exceptions.md R143). -/
def execCommand (c : Command) (s : State) : Host.Outcome State Fault Refusal :=
  match decode c with
  | .ok i => exec i s
  | .reserved _ => refused .op s

end Sys2Proof.Machine
end

