-- ==== Sys2Proof/Machine/Step.lean ====
section
/-! DEFINITION. One step of the core (44_commands.md R120): the oldest command of CMD. -/

namespace Sys2Proof.Machine

/-- R120. With CMD empty the core holds its state and waits for a command (10_state.md R32,
60_exceptions.md R151; notes/assumptions/2.md). -/
def step (s : State) : Host.Outcome State Fault Refusal :=
  match s.fetch with
  | none => .next s
  | some (c, t) => execCommand c t

/-- The opcode-table word `w` as the next command on CMD: the host issues it (notes/assumptions/3.md). -/
def State.withFetchWord (s : State) (nbits w : Nat) : State := s.issue (commandOfBits nbits w)

end Sys2Proof.Machine
end

