-- ==== Sys2Proof/Machine/Batch.lean ====
section
/-! DEFINITION. The functions of whole sequences that the spec defines beside the commands: Resample
(41_resampler.md R92), Pack (30_encoding.md R68, 43_bit_packer.md R113, R114) and Encode (44_commands.md
R133). The core never runs them; they are what its commands are judged against. -/

namespace Sys2Proof.Machine

/-- The loop of `Resample` (R92): while the cursor is below the length, emit `input[floor(idx)]` and add
the ratio. None where the loop never ends (R168); the fuel is used as in `srcLoop`. -/
def resampleLoop (c : CursorNum) (input : List Int) (ratio : F64) : Nat → F64 → Option (List Int)
  | 0, _ => none
  | fuel + 1, idx =>
    if c.flt idx (c.ofNat input.length) then
      if c.fadd idx ratio = idx then none
      else do
        let sample ← input[c.ffloor idx]?
        let rest ← resampleLoop c input ratio fuel (c.fadd idx ratio)
        pure (sample :: rest)
    else some []

/-- `Resample(input, sourceRate, targetRate)` (R92). -/
def resample (c : CursorNum) (input : List Int) (r : ConfigRegs) : Option (List Int) :=
  if r.srcRate = r.tgtRate then some input
  else resampleLoop c input (srcRatio c r) srcFuel posZero

/-- ADM.STEP threaded through a sample list: the last EncoderState and the bits, in order (R106, R133). -/
def admRun : EncoderState → List Int → EncoderState × List Bool
  | e, [] => (e, [])
  | e, x :: xs =>
    let one := admStep e x
    let rest := admRun one.1 xs
    (rest.1, one.2 :: rest.2)

/-- The byte whose bit `i` is `f i` (R7, R45). -/
def byteOfBits (f : Nat → Bool) : Byte :=
  BitVec.ofNat 8 (((List.range 8).map fun i => if f i then 2 ^ i else 0).sum)

/-- `Pack`: byte `j` holds in its bit `i` the bit of index `8j + i`; the last byte is padded with zeros;
`ceil(N / 8)` bytes (R68, R113, R114). -/
def pack (bits : List Bool) : List Byte :=
  (List.range ((bits.length + 7) / 8)).map fun j => byteOfBits fun i => bits.getD (8 * j + i) false

/-- The bits of a byte sequence, LSB-first (R114). -/
def unpack (bytes : List Byte) : List Bool :=
  bytes.flatMap fun b => (List.range 8).map fun i => b.getLsbD i

/-- `Encode(x)` (R133): the bytes of one whole run; none where the run hangs. -/
def encodeRun (c : CursorNum) (input : List Int) (r : ConfigRegs) : Option (List Byte) :=
  (resample c input r).map fun ys => pack (admRun EncoderState.initial ys).2

/-- BP.PUSH of a bit list, in order: the last registers and the bytes pushed (R110). -/
def bpPushAll : BitStream → List Bool → BitStream × List Byte
  | b, [] => (b, [])
  | b, x :: xs =>
    let one := bpPush b x
    let rest := bpPushAll one.1 xs
    (rest.1, one.2 ++ rest.2)

/-- Forward of a sample list, in order (R128). -/
def forwardAll : List Int → State → State
  | [], s => s
  | x :: xs, s => forwardAll xs (forward x s)

/-- SRC.STEP of a sample list, in order (R94). -/
def srcSteps (c : CursorNum) : List Int → State → SrcResult
  | [], s => .done s
  | x :: xs, s =>
    match srcStep c x s with
    | .done t => srcSteps c xs t
    | .hang t => .hang t

end Sys2Proof.Machine
end

