-- ==== Sys2Proof/Safety.lean ====
section
/-! DEFINITION. The terms claims are stated in: the invariant of the machine, the table of refusals
(60_exceptions.md R143, R145), runs of several commands, and the cursor of the SRC. -/

namespace Sys2Proof.Machine

/-- What holds of the core at every command boundary. -/
structure Inv (s : State) : Prop where
  /-- bits `bitpos` and above of `acc` are 0 (10_state.md R18, 43_bit_packer.md R111) -/
  padding : s.bits.acc.toNat < 2 ^ s.bits.bitpos.toNat
  /-- the run is shorter than 2^53 input samples (70_reset_and_hazards.md R170) -/
  lengthBound : s.cur.n < runLimit
  /-- the cursor is non-negative and finite (10_state.md R15, 41_resampler.md R90) -/
  cursorReal : f64Real s.cur.idx = true
  /-- so is the ratio (R90) -/
  ratioReal : f64Real s.cur.ratio = true
  /-- START lets no run begin under a zero rate, and CFG is refused in a run (44_commands.md R123, R127) -/
  rates : s.status.mode = .run → s.regs.srcRate ≠ 0 ∧ s.regs.tgtRate ≠ 0
  /-- the latched ratio is that of the rates, which are frozen in a run (10_state.md R17,
  70_reset_and_hazards.md R165) -/
  ratio : s.status.mode = .run → s.cur.ratio = srcRatio binary64 s.regs
  /-- the invariant of SRC.STEP (R93) -/
  ahead : s.status.mode = .run → s.regs.srcRate ≠ s.regs.tgtRate → s.cur.n ≤ f64Floor s.cur.idx

/-- The commands under any Config (00_scope.md R6); `exec` is the reference instance. -/
def execWith (cfg : Config) (i : Instr) (s : State) : Host.Outcome State Fault Refusal :=
  match i with
  | .rst => execRst s
  | .cfg addr value => execCfg addr value s
  | .rd addr => execRd addr s
  | .start => startWith cfg s
  | .sample b => sampleWith cfg b s
  | .frame payload => frameWith cfg payload s
  | .endRun => execEnd s

/-- The number of an error code in the table of R143; 0 where no command has been refused (10_state.md R26). -/
def errNumber : Option ErrCode → Nat
  | none => 0
  | some .op => 1
  | some .mode => 2
  | some .addr => 3
  | some .cfg => 4
  | some .len => 5

/-- The table of refusal causes (R143): command `i` in state `s` meets a condition of code `e`. -/
def RefusalCause (hasSF : Bool) (i : Instr) (s : State) (e : ErrCode) : Prop :=
  match i with
  | .rst => False
  | .cfg addr value =>
    e = .mode ∧ s.status.mode = .run ∨ e = .addr ∧ 3 < addr.toNat ∨
      e = .cfg ∧ (addr.toNat = 2 ∨ addr.toNat = 3) ∧ 255 < value.toNat
  | .rd addr => e = .addr ∧ 9 < addr.toNat
  | .start =>
    e = .mode ∧ s.status.mode = .run ∨ e = .cfg ∧ (s.regs.srcRate = 0 ∨ s.regs.tgtRate = 0)
  | .sample _ => e = .mode ∧ s.status.mode = .idle
  | .frame payload =>
    e = .op ∧ hasSF = false ∨ e = .mode ∧ s.status.mode = .idle ∨ e = .cfg ∧ s.regs.channels = 0 ∨
      e = .len ∧ (s.regs.width = 8 ∧ payload.length ≠ s.regs.channels.toNat ∨
        s.regs.width = 16 ∧ payload.length ≠ 2 * s.regs.channels.toNat)
  | .endRun => e = .mode ∧ s.status.mode = .idle

/-- `e` is the code the command is refused with: of several causes the lowest code (R145: the order of
priority is the order of the codes). -/
def RefusedWith (hasSF : Bool) (i : Instr) (s : State) (e : ErrCode) : Prop :=
  RefusalCause hasSF i s e ∧
    ∀ d, errNumber (some d) < errNumber (some e) → ¬ RefusalCause hasSF i s d

/-- No refusal cause holds: the command is accepted. -/
def Accepted (hasSF : Bool) (i : Instr) (s : State) : Prop := ∀ e, ¬ RefusalCause hasSF i s e

/-- The number of a mode in STATUS (R24). -/
def modeNumber : Mode → Nat
  | .idle => 0
  | .run => 1

/-- `v` is the word that a read of register `a` delivers in state `s`, row by row of the table of R20. -/
def RegisterWord (a : RegAddr) (v : Word) (s : State) : Prop :=
  match a.toNat with
  | 0 => v = s.regs.srcRate
  | 1 => v = s.regs.tgtRate
  | 2 => v.toNat = s.regs.channels.toNat
  | 3 => v.toNat = s.regs.width.toNat
  | 4 => v.toNat = modeNumber s.status.mode + 2 * s.status.wUnsup.toNat + 16 * errNumber s.status.err
  | 5 => v.toInt = s.enc.charge.toInt
  | 6 => v.toNat = s.enc.strength.toNat
  | 7 => v.toNat = s.enc.prev.toNat
  | 8 => v.toNat = s.bits.bitpos.toNat
  | 9 => v.toNat = s.bits.acc.toNat
  | _ => False

/-- `r` is a non-negative finite value nearest to `num / den` units of 2^-1074, and the even one of two
nearest ones (41_resampler.md R90: nearest, ties to even). -/
def NearestEven (num den : Nat) (r : F64) : Prop :=
  ∀ y : F64, f64Real y = true →
    ((f64Scaled r * den : Int) - num).natAbs ≤ ((f64Scaled y * den : Int) - num).natAbs ∧
    (((f64Scaled r * den : Int) - num).natAbs = ((f64Scaled y * den : Int) - num).natAbs →
      y = r ∨ r.toNat % 2 = 0)

/-- `n` set to a given index (R16). -/
def State.withIndex (s : State) (n : Nat) : State := { s with cur := { s.cur with n := n } }

/-- The cursor after `k` additions of the ratio (41_resampler.md R97: repeated addition). -/
def cursorAfter (c : CursorNum) (ratio : F64) : Nat → F64 → F64
  | 0, idx => idx
  | k + 1, idx => cursorAfter c ratio k (c.fadd idx ratio)

/-- Commands executed one after the other, stopping at the first fault or refusal (20_memory.md R51). -/
def execAll : List Instr → State → Host.Outcome State Fault Refusal
  | [], s => .next s
  | i :: is, s =>
    match exec i s with
    | .next t => execAll is t
    | .fault r => .fault r
    | .refused r => .refused r

/-- The SAMPLE commands that present a list of Samples (30_encoding.md R73). -/
def sampleCommands (xs : List Int) : List Instr := xs.map fun x => .sample (BitVec.ofInt 8 x)

/-- The Sample a command presents to the SRC in a run with configuration `r` (44_commands.md R129, R131), under
the reference DIV_MODE; none for a command that presents none or is refused in RUN. -/
def presentedSample (r : ConfigRegs) : Instr → Option Int
  | .rst => none
  | .cfg _ _ => none
  | .rd _ => none
  | .start => none
  | .sample b => some b.toInt
  | .frame payload =>
    if r.channels = 0 ∨ frameLengthWrong payload r = true then none
    else some (frameSample .floor payload r.channels.toNat r.width.toNat)
  | .endRun => none

/-- `x` is a Sample (00_scope.md R9): an integer in [-128, 127]. -/
def IsSample (x : Int) : Prop := sampleMin ≤ x ∧ x ≤ sampleMax

/-- Two states that agree on everything that decides which bits are emitted: all but W_UNSUP, ERR and the
channels. -/
def SameDataPath (s t : State) : Prop :=
  s.enc = t.enc ∧ s.bits = t.bits ∧ s.cur = t.cur ∧ s.regs = t.regs ∧ s.status.mode = t.status.mode

end Sys2Proof.Machine
end

