-- ==== Sys2Proof/Certificates/Slice0/Obligations.lean ====
section
/-! DEFINITION. The statements about the machine, from the numbered rules of spec/. Their terms are defined
in Sys2Proof/Safety.lean and Sys2Proof/Machine/Batch.lean. -/

open Sys2Proof Sys2Proof.Machine

/-! Encoding (30_encoding.md). -/

/-- Every command comes back from its encoding, and the encoding is what an assembler writes. -/
def Obligations.DecodeEncodeRoundTrip : Prop :=
  ∀ i : Instr, decode (encode i) = .ok i ∧ (encode i).canonical = true

/-- Among the commands an assembler writes, each instruction has one encoding. -/
def Obligations.CanonicalCommandReencodes : Prop :=
  ∀ (c : Command) (i : Instr), c.canonical = true → decode c = .ok i → encode i = c

/-- The verdict of the decoder on any 40-bit header (R60, R61, R71), with the operands as numbers (R62, R63). -/
def Obligations.DecodeVerdictFromHeaderBits : Prop :=
  ∀ c : Command, decode c =
    if c.header.toNat / 8 % 2 = 1 then .reserved .rsvBit
    else match c.header.toNat % 8 with
      | 0 => .ok .rst
      | 1 => .ok (.cfg (BitVec.ofNat 4 (c.header.toNat / 16)) (BitVec.ofNat 32 (c.header.toNat / 256)))
      | 2 => .ok (.rd (BitVec.ofNat 4 (c.header.toNat / 16)))
      | 3 => .ok .start
      | 4 => .ok (.sample (BitVec.ofNat 8 (c.header.toNat / 256)))
      | 5 => .ok (.frame c.payload)
      | 6 => .ok .endRun
      | _ => .reserved .opSeven

/-- Headers of 95_test_vectors.md (V5 lines 9 to 12, P1, P4), one for each command, read as they stand there.
That a table word of 40 bits is a header with an empty payload is the model's choice (notes/assumptions/3.md). -/
def Obligations.OpcodeWordsDecode : Prop :=
  decodeTableWord 40 0xFFFFFFFFF0 = some .rst ∧
  decodeTableWord 40 0x0000BB8001 = some (.cfg 0 48000) ∧
  decodeTableWord 40 0x0000012C21 = some (.cfg 2 300) ∧
  decodeTableWord 40 0x00000000A2 = some (.rd 10) ∧
  decodeTableWord 40 0x0000000003 = some .start ∧
  decodeTableWord 40 0x00FFFF9C04 = some (.sample 0x9C) ∧
  decodeTableWord 40 0x0000000005 = some (.frame []) ∧
  decodeTableWord 40 0x0000000006 = some .endRun ∧
  decodeTableWord 40 0x0000000007 = none ∧
  decodeTableWord 40 0x000000000A = none

/-- The header numbers of the assembler's table (R73). -/
def Obligations.AssemblerHeaderNumbers : Prop :=
  (∀ a v, (encode (.cfg a v)).header.toNat = v.toNat * 256 + a.toNat * 16 + 1) ∧
  (∀ a, (encode (.rd a)).header.toNat = a.toNat * 16 + 2) ∧
  (∀ x, IsSample x → (encode (.sample (BitVec.ofInt 8 x))).header.toNat = (x % 256).toNat * 256 + 4) ∧
  (∀ p, (encode (.frame p)).header.toNat = 5 ∧ (encode (.frame p)).payload = p) ∧
  (encode .rst).header.toNat = 0 ∧ (encode .start).header.toNat = 3 ∧ (encode .endRun).header.toNat = 6

/-- R74: FRAME8 and FRAME16 present the channel values they are written with, reduced as R80 and R81 say. -/
def Obligations.FramePseudoInstructionsPresentTheirValues : Prop :=
  (∀ us : List Nat, (Pseudo.frame8 us).wellFormed = true → ∃ p, (Pseudo.frame8 us).expand = [.frame p] ∧
    p.length = us.length ∧
    ∀ mode, channelSamples mode p us.length 8 = us.map fun (u : Nat) => (u : Int) - 128) ∧
  (∀ vs : List Int, (Pseudo.frame16 vs).wellFormed = true → ∃ p, (Pseudo.frame16 vs).expand = [.frame p] ∧
    p.length = 2 * vs.length ∧
    channelSamples .floor p vs.length 16 = vs.map fun v => Int.fdiv v 256)

/-! The step (44_commands.md R120). -/

/-- A step takes the oldest command off CMD and runs the instruction it decodes to (R120). The other two clauses
are the model's: with CMD empty nothing changes (its reading of R32 and R151, notes/assumptions/2.md), and a
table word put in front of CMD by `withFetchWord` runs in the next step (its choice of how a command comes from
a word, notes/assumptions/3.md). -/
def Obligations.StepRunsTheDecodedCommand : Prop :=
  (∀ (s : State) (c : Command) (rest : List Command) (i : Instr),
    s.chan.cmd = c :: rest → decode c = .ok i → step s = exec i (s.setCommands rest)) ∧
  (∀ s : State, s.chan.cmd = [] → step s = .next s) ∧
  (∀ (s : State) (w : Nat) (i : Instr), decodeTableWord 40 w = some i →
    step (s.withFetchWord 40 w) = exec i s)

/-- A reserved header (R69) is refused with ERR_OP, whatever its other bits and the mode are. -/
def Obligations.ReservedHeaderRecordsErrOp : Prop :=
  ∀ (s : State) (c : Command) (rest : List Command), s.chan.cmd = c :: rest →
    c.header.toNat / 8 % 2 = 1 ∨ c.header.toNat % 8 = 7 →
    step s = .next (refuse .op (s.setCommands rest))

/-! Reset (70_reset_and_hazards.md). -/

/-- The state after hardware reset (R160, R32). That the lists of OUT and RESP are empty is the model's choice
(notes/assumptions/1.md). -/
def Obligations.ResetLeavesEveryRegisterAtItsValue : Prop :=
  State.reset.enc.charge.toInt = 0 ∧ State.reset.enc.strength.toNat = 0 ∧ State.reset.enc.prev = false ∧
  f64Scaled State.reset.cur.idx = 0 ∧ f64Scaled State.reset.cur.ratio = 0 ∧ State.reset.cur.n = 0 ∧
  State.reset.bits.acc.toNat = 0 ∧ State.reset.bits.bitpos.toNat = 0 ∧
  State.reset.regs.srcRate.toNat = 0 ∧ State.reset.regs.tgtRate.toNat = 48000 ∧
  State.reset.regs.channels.toNat = 0 ∧ State.reset.regs.width.toNat = 0 ∧
  State.reset.status.mode = .idle ∧ State.reset.status.wUnsup = false ∧ State.reset.status.err = none ∧
  State.reset.chan.out = [] ∧ State.reset.chan.resp = []

/-- R161, R121: RST, in either mode, gives every register its reset value, pushes nothing and delivers nothing. -/
def Obligations.RstGivesTheResetState : Prop :=
  ∀ s : State, exec .rst s = .next
    { enc := ⟨0, 0, false⟩, bits := ⟨0, 0⟩, cur := ⟨0, 0, 0⟩, regs := ⟨0, 48000, 0, 0⟩,
      status := ⟨.idle, false, none⟩, chan := s.chan }

/-! CFG and RD (44_commands.md). -/

/-- R123: the refusals in their order; else the addressed register, and no other state, takes the value. -/
def Obligations.CfgFollowsItsRule : Prop :=
  ∀ (s : State) (a : RegAddr) (v : Word),
    (s.status.mode = .run → exec (.cfg a v) s = .next (refuse .mode s)) ∧
    (s.status.mode = .idle → 3 < a.toNat → exec (.cfg a v) s = .next (refuse .addr s)) ∧
    (s.status.mode = .idle → a.toNat = 2 ∨ a.toNat = 3 → 255 < v.toNat →
      exec (.cfg a v) s = .next (refuse .cfg s)) ∧
    (s.status.mode = .idle → a.toNat ≤ 1 ∨ a.toNat ≤ 3 ∧ v.toNat ≤ 255 →
      ∃ r : ConfigRegs, exec (.cfg a v) s = .next { s with regs := r } ∧
        readReg a { s with regs := r } = some v ∧
        ∀ b : RegAddr, b ≠ a → readReg b { s with regs := r } = readReg b s)

/-- R125: a reserved address is refused; else RESP gets exactly the word of R20 and nothing else changes. -/
def Obligations.RdDeliversTheRegisterWord : Prop :=
  ∀ (s : State) (a : RegAddr),
    (9 < a.toNat → exec (.rd a) s = .next (refuse .addr s)) ∧
    (a.toNat ≤ 9 → ∃ v, RegisterWord a v s ∧
      exec (.rd a) s = .next { s with chan := { s.chan with resp := s.chan.resp ++ [v] } })

/-! START and END (44_commands.md). -/

/-- The refusals of R127 in their order; else a fresh encoder, cursor and bit buffer, RUN, and the ratio of
R91 latched in the reference number format of R90. -/
def Obligations.StartBeginsAFreshRun : Prop :=
  ∀ s : State,
    (s.status.mode = .run → exec .start s = .next (refuse .mode s)) ∧
    (s.status.mode = .idle → s.regs.srcRate = 0 ∨ s.regs.tgtRate = 0 →
      exec .start s = .next (refuse .cfg s)) ∧
    (s.status.mode = .idle → s.regs.srcRate ≠ 0 → s.regs.tgtRate ≠ 0 → exec .start s = .next
      { s with
        enc := ⟨0, 0, false⟩, bits := ⟨0, 0⟩,
        cur := ⟨0, 0, f64Div (f64OfNat s.regs.srcRate.toNat) (f64OfNat s.regs.tgtRate.toNat)⟩,
        status := ⟨.run, false, s.status.err⟩ })

/-- R132: refused in IDLE; else the partial byte is pushed if there is one, and the mode is IDLE. -/
def Obligations.EndFlushesAndGoesIdle : Prop :=
  ∀ s : State,
    (s.status.mode = .idle → exec .endRun s = .next (refuse .mode s)) ∧
    (s.status.mode = .run → s.bits.bitpos = 0 →
      exec .endRun s = .next { s with status := { s.status with mode := .idle } }) ∧
    (s.status.mode = .run → s.bits.bitpos ≠ 0 → exec .endRun s = .next
      { s with
        bits := ⟨0, 0⟩, status := { s.status with mode := .idle },
        chan := { s.chan with out := s.chan.out ++ [s.bits.acc] } })

/-- R174 from a state of the invariant: after END the mode is IDLE and nothing is left in the bit buffer. -/
def Obligations.EndedRunHoldsNoBits : Prop :=
  ∀ s : State, Inv s → s.status.mode = .run → ∃ t, exec .endRun s = .next t ∧
    t.status.mode = .idle ∧ t.bits = ⟨0, 0⟩ ∧ t.enc = s.enc ∧ t.cur = s.cur ∧ t.regs = s.regs ∧
    t.status.wUnsup = s.status.wUnsup ∧ t.status.err = s.status.err ∧
    t.chan.cmd = s.chan.cmd ∧ t.chan.resp = s.chan.resp ∧
    t.chan.out = s.chan.out ++ (if s.bits.bitpos = 0 then [] else [s.bits.acc])

/-! ADM (42_delta_encoder.md). -/

/-- R100: the six steps on integers, with no wrap-around anywhere. -/
def Obligations.AdmStepFollowsItsSixSteps : Prop :=
  ∀ (e : EncoderState) (x : Int),
    (admStep e x).2 = decide (x > e.charge.toInt) ∧
    ((admStep e x).1.strength.toNat : Int) = max 0 (min 63
      (if (admStep e x).2 = e.prev then (e.strength.toNat : Int) + 1 else (e.strength.toNat : Int) - 1)) ∧
    (admStep e x).1.charge.toInt = max (-128) (min 127
      (if (admStep e x).2 then e.charge.toInt + (4 * ((admStep e x).1.strength.toNat : Int) + 2)
        else e.charge.toInt - (4 * ((admStep e x).1.strength.toNat : Int) + 2))) ∧
    (admStep e x).1.prev = (admStep e x).2

/-- R102 to R104: strength moves by one or rests at a bound; charge moves in the direction of the bit, and
rests only at the bound it would leave. -/
def Obligations.EncoderMovesWithTheBit : Prop :=
  ∀ (e : EncoderState) (x : Int),
    ((admStep e x).2 = true → e.charge.toInt ≤ (admStep e x).1.charge.toInt) ∧
    ((admStep e x).2 = false → (admStep e x).1.charge.toInt ≤ e.charge.toInt) ∧
    ((admStep e x).1.charge = e.charge ↔
      (admStep e x).2 = true ∧ e.charge.toInt = 127 ∨ (admStep e x).2 = false ∧ e.charge.toInt = -128) ∧
    ((admStep e x).1.strength.toNat = e.strength.toNat + 1 ∨
      (admStep e x).1.strength.toNat + 1 = e.strength.toNat ∨
      (admStep e x).1.strength = e.strength ∧ (e.strength.toNat = 0 ∨ e.strength.toNat = 63))

/-- Silence from the initial state (R107). -/
def Obligations.SilenceRepeatsEveryFourSamples : Prop :=
  (∀ k : Nat, admRun EncoderState.initial (List.replicate (4 * k) 0) =
    (EncoderState.initial, (List.replicate k [false, true, true, false]).flatten)) ∧
  (∀ k : Nat, pack (admRun EncoderState.initial (List.replicate (8 * k) 0)).2 =
    List.replicate k (0x66 : Byte)) ∧
  admStep EncoderState.initial 0 = (⟨BitVec.ofInt 8 (-6), 1, false⟩, false) ∧
  admStep ⟨BitVec.ofInt 8 (-6), 1, false⟩ 0 = (⟨BitVec.ofInt 8 (-4), 0, true⟩, true) ∧
  admStep ⟨BitVec.ofInt 8 (-4), 0, true⟩ 0 = (⟨2, 1, true⟩, true) ∧
  admStep ⟨2, 1, true⟩ 0 = (EncoderState.initial, false)

/-! BP (43_bit_packer.md). -/

/-- R113 and R114: from an empty buffer, N pushes and the flush give ceil(N / 8) bytes, N / 8 of them by the
pushes; bit k mod 8 of byte k / 8 is the k-th bit, and 0 beyond the last. -/
def Obligations.PushedBitsComeBack : Prop :=
  ∀ bits : List Bool,
    (bpPushAll BitStream.empty bits).2.length = bits.length / 8 ∧
    ((bpPushAll BitStream.empty bits).2 ++ (bpFlush (bpPushAll BitStream.empty bits).1).2).length =
      (bits.length + 7) / 8 ∧
    ∀ k : Nat, k < 8 * ((bits.length + 7) / 8) → ∃ b,
      ((bpPushAll BitStream.empty bits).2 ++ (bpFlush (bpPushAll BitStream.empty bits).1).2)[k / 8]? = some b ∧
      b.getLsbD (k % 8) = bits.getD k false

/-- The pushes and the flush together are the whole-sequence function Pack, the flush leaves the buffer
empty, and Unpack undoes it. -/
def Obligations.StreamedPackingIsPack : Prop :=
  ∀ bits : List Bool,
    (bpPushAll BitStream.empty bits).2 ++ (bpFlush (bpPushAll BitStream.empty bits).1).2 = pack bits ∧
    (bpFlush (bpPushAll BitStream.empty bits).1).1 = BitStream.empty ∧
    (unpack (pack bits)).take bits.length = bits

/-- R111 for each operation of BP: the bits at `bitpos` and above stay 0. -/
def Obligations.PaddingBitsStayZero : Prop :=
  ∀ (b : BitStream) (bit : Bool), (∀ i : Nat, b.bitpos.toNat ≤ i → b.acc.getLsbD i = false) →
    (∀ i : Nat, (bpPush b bit).1.bitpos.toNat ≤ i → (bpPush b bit).1.acc.getLsbD i = false) ∧
    (∀ i : Nat, (bpFlush b).1.bitpos.toNat ≤ i → (bpFlush b).1.acc.getLsbD i = false)

/-- k forwards push (bitpos + k) / 8 bytes and leave (bitpos + k) mod 8 bits pending; with bitpos at most 7
that is between k / 8 and k / 8 + 1 bytes (R173). -/
def Obligations.ForwardsPushOneByteInEight : Prop :=
  ∀ (c : CursorNum) (x : Int) (k : Nat) (s : State),
    (srcTurns c x k s).chan.out.length = s.chan.out.length + (s.bits.bitpos.toNat + k) / 8 ∧
    (srcTurns c x k s).bits.bitpos.toNat = (s.bits.bitpos.toNat + k) % 8

/-! SF (40_sample_source.md). -/

/-- R80, R81, R44: the pair is little-endian, floor division by 256 keeps the high byte, an 8-bit sample is
offset by 128; every result is a Sample, under either DIV_MODE. -/
def Obligations.WidthReductionGivesSamples : Prop :=
  ∀ lo hi : Byte,
    pcm16 lo hi = 256 * hi.toInt + lo.toNat ∧ conv16 .floor lo hi = hi.toInt ∧
    conv8 lo = (lo.toNat : Int) - 128 ∧ IsSample (conv8 lo) ∧ ∀ mode, IsSample (conv16 mode lo hi)

/-- R65 to R67, R85: channel c is payload[c], or the pair at 2c, or 0. -/
def Obligations.ChannelSamplesByIndex : Prop :=
  ∀ (mode : DivMode) (payload : List Byte) (channels width : Nat),
    (width = 8 → payload.length = channels → ∀ c, c < channels → ∃ b, payload[c]? = some b ∧
      (channelSamples mode payload channels width)[c]? = some ((b.toNat : Int) - 128)) ∧
    (width = 16 → payload.length = 2 * channels → ∀ c, c < channels → ∃ lo hi,
      payload[2 * c]? = some lo ∧ payload[2 * c + 1]? = some hi ∧
      (channelSamples mode payload channels width)[c]? = some (idiv mode (pcm16 lo hi) 256)) ∧
    (width ≠ 8 → width ≠ 16 →
      channelSamples mode payload channels width = List.replicate channels 0)

/-- R82, R84: under floor the downmix rounds toward negative infinity, under trunc toward zero; equal
channels give their value; the order of the channels does not matter. -/
def Obligations.DownmixAverages : Prop :=
  ∀ (xs : List Int) (c : Nat), 1 ≤ c →
    downmix .floor xs c * c ≤ xs.sum ∧ xs.sum < (downmix .floor xs c + 1) * c ∧
    (downmix .trunc xs c).natAbs * c ≤ xs.sum.natAbs ∧
    xs.sum.natAbs < ((downmix .trunc xs c).natAbs + 1) * c ∧
    (0 ≤ xs.sum → 0 ≤ downmix .trunc xs c) ∧ (xs.sum ≤ 0 → downmix .trunc xs c ≤ 0) ∧
    ∀ mode, (∀ x, downmix mode (List.replicate c x) c = x) ∧
      ∀ ys, xs.Perm ys → downmix mode ys c = downmix mode xs c

/-- R84, R85: a frame of the right length gives one Sample. Each channel is reduced first and the reduced
channels are averaged second: of `byte - 128` under WIDTH 8, of the pair at 2c divided by 256 under WIDTH 16. -/
def Obligations.FrameGivesOneSample : Prop :=
  ∀ (mode : DivMode) (payload : List Byte) (r : ConfigRegs), r.channels ≠ 0 →
    frameLengthWrong payload r = false →
    IsSample (frameSample mode payload r.channels.toNat r.width.toNat) ∧
    (r.width = 8 → frameSample mode payload r.channels.toNat r.width.toNat =
      idiv mode (payload.map fun b => (b.toNat : Int) - 128).sum r.channels.toNat) ∧
    (r.width = 16 → frameSample mode payload r.channels.toNat r.width.toNat =
      idiv mode
        ((List.range r.channels.toNat).map fun c =>
          idiv mode (pcm16 (payload.getD (2 * c) 0) (payload.getD (2 * c + 1) 0)) 256).sum
        r.channels.toNat) ∧
    (r.width ≠ 8 → r.width ≠ 16 → frameSample mode payload r.channels.toNat r.width.toNat = 0)

/-! SAMPLE and FRAME (44_commands.md R129, R131; 41_resampler.md R93). -/

/-- Under equal rates SAMPLE forwards its Sample exactly once and touches no cursor. -/
def Obligations.SampleUnderEqualRates : Prop :=
  ∀ (s : State) (b : Byte), s.status.mode = .run → s.regs.srcRate = s.regs.tgtRate →
    s.cur.n + 1 < 2 ^ 53 → exec (.sample b) s = .next
      { s with
        enc := (admStep s.enc b.toInt).1
        bits := (bpPush s.bits (admStep s.enc b.toInt).2).1
        cur := { s.cur with n := s.cur.n + 1 }
        chan := { s.chan with out := s.chan.out ++ (bpPush s.bits (admStep s.enc b.toInt).2).2 } }

/-- A Sample the cursor is not on is skipped: only the index moves. -/
def Obligations.SkippedSampleMovesOnlyTheIndex : Prop :=
  ∀ (s : State) (b : Byte), s.status.mode = .run → s.regs.srcRate ≠ s.regs.tgtRate →
    s.cur.n + 1 < 2 ^ 53 → f64Floor s.cur.idx ≠ s.cur.n →
    exec (.sample b) s = .next { s with cur := { s.cur with n := s.cur.n + 1 } }

/-- SAMPLE runs the loop of SRC.STEP to its end, for every cursor format: where the cursor stays on the
index for k turns and is off it after them, the Sample is forwarded exactly k times. `exec` is the case of
the reference Config. -/
def Obligations.SampleForwardsWhileTheCursorIsOnIt : Prop :=
  (∀ (cfg : Config) (s : State) (b : Byte) (k : Nat), s.status.mode = .run →
    s.regs.srcRate ≠ s.regs.tgtRate → s.cur.n + 1 < 2 ^ 53 →
    (∀ j, j < k → cfg.cursor.ffloor (cursorAfter cfg.cursor s.cur.ratio j s.cur.idx) = s.cur.n) →
    cfg.cursor.ffloor (cursorAfter cfg.cursor s.cur.ratio k s.cur.idx) ≠ s.cur.n →
    execWith cfg (.sample b) s =
      .next ((srcTurns cfg.cursor b.toInt k s).withIndex (s.cur.n + 1))) ∧
  (∀ (s : State) (b : Byte) (k : Nat), s.status.mode = .run →
    s.regs.srcRate ≠ s.regs.tgtRate → s.cur.n + 1 < 2 ^ 53 →
    (∀ j, j < k → f64Floor (cursorAfter binary64 s.cur.ratio j s.cur.idx) = s.cur.n) →
    f64Floor (cursorAfter binary64 s.cur.ratio k s.cur.idx) ≠ s.cur.n →
    exec (.sample b) s = .next ((srcTurns binary64 b.toInt k s).withIndex (s.cur.n + 1)))

/-- Under equal rates an accepted FRAME forwards the Sample of its frame exactly once, and sets W_UNSUP
under an unsupported width. -/
def Obligations.FrameUnderEqualRates : Prop :=
  ∀ (s : State) (p : List Byte), Accepted true (.frame p) s →
    s.regs.srcRate = s.regs.tgtRate → s.cur.n + 1 < 2 ^ 53 →
    ∃ x, x = frameSample .floor p s.regs.channels.toNat s.regs.width.toNat ∧
      exec (.frame p) s = .next
        { s with
          enc := (admStep s.enc x).1
          bits := (bpPush s.bits (admStep s.enc x).2).1
          cur := { s.cur with n := s.cur.n + 1 }
          status :=
            { s.status with
              wUnsup := s.status.wUnsup || decide (s.regs.width.toNat ≠ 8 ∧ s.regs.width.toNat ≠ 16) }
          chan := { s.chan with out := s.chan.out ++ (bpPush s.bits (admStep s.enc x).2).2 } }

/-- An accepted FRAME does what SAMPLE of its frame's Sample does, in the state with W_UNSUP set where the
width is unsupported; so every statement about SAMPLE holds of it. -/
def Obligations.FrameActsAsSampleOfItsFrame : Prop :=
  ∀ (s : State) (p : List Byte), Accepted true (.frame p) s →
    exec (.frame p) s =
      exec (.sample (BitVec.ofInt 8 (frameSample .floor p s.regs.channels.toNat s.regs.width.toNat)))
        { s with
          status :=
            { s.status with
              wUnsup := s.status.wUnsup || decide (s.regs.width.toNat ≠ 8 ∧ s.regs.width.toNat ≠ 16) } }

/-- R83, U1: under an unsupported width FRAME encodes the Sample 0 whatever the payload is, and flags it. -/
def Obligations.UnsupportedWidthEncodesZero : Prop :=
  ∀ (s : State) (p : List Byte), s.status.mode = .run → s.regs.channels ≠ 0 →
    s.regs.width ≠ 8 → s.regs.width ≠ 16 → s.regs.srcRate = s.regs.tgtRate → s.cur.n + 1 < 2 ^ 53 →
    ∃ t, exec (.frame p) s = .next t ∧ t.status = { s.status with wUnsup := true } ∧
      t.enc = (admStep s.enc 0).1 ∧ t.bits = (bpPush s.bits (admStep s.enc 0).2).1 ∧
      t.cur = { s.cur with n := s.cur.n + 1 } ∧ t.regs = s.regs ∧
      t.chan = { s.chan with out := s.chan.out ++ (bpPush s.bits (admStep s.enc 0).2).2 }

/-- A SAMPLE or FRAME that would make the run 2^53 input samples long is refused by the model: R170 gives
such a run no meaning (the model's choice among those of 93_implementation_defined.md U8,
notes/assumptions/5.md). -/
def Obligations.RunOfTwoToThe53Refused : Prop :=
  ∀ s : State, s.status.mode = .run → 2 ^ 53 ≤ s.cur.n + 1 →
    (∀ b, exec (.sample b) s = .refused .runTooLong) ∧
    ∀ p, Accepted true (.frame p) s → exec (.frame p) s = .refused .runTooLong

/-! The hang of SRC (70_reset_and_hazards.md R168). -/

/-- SAMPLE hangs exactly where the loop of SRC.STEP never ends, for every cursor format (`exec` is the case
of the reference Config: `execWith referenceConfig`). That a hang is a fault, and that the fuel of the loop
loses none, is the model's form of R168 (notes/assumptions/4.md, notes/assumptions/8.md). -/
def Obligations.HangExactlyWhereTheLoopNeverEnds : Prop :=
  ∀ (cfg : Config) (s : State) (b : Byte), s.status.mode = .run → s.cur.n + 1 < 2 ^ 53 →
    ((∃ frozen, execWith cfg (.sample b) s = .fault (.srcHang frozen b.toInt)) ↔
      s.regs.srcRate ≠ s.regs.tgtRate ∧
      ∀ k, cfg.cursor.ffloor (cursorAfter cfg.cursor s.cur.ratio k s.cur.idx) = s.cur.n)

/-- The turns of a hang push bytes without bound. -/
def Obligations.HangPushesWithoutBound : Prop :=
  ∀ (c : CursorNum) (x : Int) (s : State) (m : Nat), ∃ k, m ≤ (srcTurns c x k s).chan.out.length

/-- The safe bound: with fewer than 2^32 input samples and an up-sampling factor of at most 2^21, no SAMPLE
or FRAME hangs. -/
def Obligations.NoHangInsideTheSafeBound : Prop :=
  ∀ (s : State) (i : Instr), (∃ b, i = .sample b) ∨ (∃ p, i = .frame p) → Inv s →
    Accepted true i s → s.cur.n < 2 ^ 32 →
    s.regs.tgtRate.toNat ≤ 2 ^ 21 * s.regs.srcRate.toNat → ∃ t, exec i s = .next t

/-- The smallest ratio, 1 / (2^32 - 1), no longer moves the cursor at 2^22, and still does at 2^21. -/
def Obligations.SmallestRatioStallsAtTwoToThe22 : Prop :=
  f64Add (f64OfNat (2 ^ 22)) (f64Div (f64OfNat 1) (f64OfNat (2 ^ 32 - 1))) = f64OfNat (2 ^ 22) ∧
  f64Add (f64OfNat (2 ^ 21)) (f64Div (f64OfNat 1) (f64OfNat (2 ^ 32 - 1))) ≠ f64OfNat (2 ^ 21)

/-! SRC as a function of the whole input (41_resampler.md R92 to R95; 44_commands.md R133). -/

/-- R94: from the cursor that START leaves, SRC.STEP on the samples in order forwards exactly Resample of
them, and adds the ratio once for each forward (under equal rates it leaves the cursor alone). It hangs where
Resample never ends (R168): `.hang` and `none` are the model's forms of an endless loop
(notes/assumptions/4.md, notes/assumptions/8.md). -/
def Obligations.StreamingResamplerIsBatchResampler : Prop :=
  ∀ (s : State) (xs : List Int), s.regs.srcRate ≠ 0 → s.regs.tgtRate ≠ 0 →
    s.cur = ⟨posZero, 0, srcRatio binary64 s.regs⟩ → xs.length < 2 ^ 53 →
    (∀ ys, resample binary64 xs s.regs = some ys → ∃ t, srcSteps binary64 xs s = .done t ∧
      t.enc = (forwardAll ys s).enc ∧ t.bits = (forwardAll ys s).bits ∧ t.chan = (forwardAll ys s).chan ∧
      t.cur.n = xs.length ∧ t.cur.ratio = s.cur.ratio ∧
      t.cur.idx = (if s.regs.srcRate = s.regs.tgtRate then s.cur.idx
        else cursorAfter binary64 s.cur.ratio ys.length s.cur.idx) ∧
      t.regs = s.regs ∧ t.status = s.status) ∧
    (resample binary64 xs s.regs = none → ∃ t, srcSteps binary64 xs s = .hang t)

/-- R133: START, the samples, END push exactly Encode of the samples, and leave the core idle with its
configuration and ERR as they were. Where Resample never ends the run hangs (R168): the fault is the model's
form of it (notes/assumptions/4.md, notes/assumptions/8.md). -/
def Obligations.WholeRunPushesEncode : Prop :=
  ∀ (s : State) (xs : List Int), s.status.mode = .idle → s.regs.srcRate ≠ 0 → s.regs.tgtRate ≠ 0 →
    (∀ x, x ∈ xs → IsSample x) → xs.length < 2 ^ 53 →
    (∀ bytes, encodeRun binary64 xs s.regs = some bytes → ∃ t,
      execAll (.start :: (sampleCommands xs ++ [.endRun])) s = .next t ∧
      t.chan.out = s.chan.out ++ bytes ∧ t.chan.resp = s.chan.resp ∧ t.chan.cmd = s.chan.cmd ∧
      t.status = ⟨.idle, false, s.status.err⟩ ∧ t.bits = ⟨0, 0⟩ ∧ t.regs = s.regs ∧
      t.cur.n = xs.length) ∧
    (encodeRun binary64 xs s.regs = none → ∃ frozen x,
      execAll (.start :: (sampleCommands xs ++ [.endRun])) s = .fault (.srcHang frozen x))

/-- R95: with ratio 1.0 the general branch forwards exactly once too. -/
def Obligations.GeneralBranchForwardsOnceAtRatioOne : Prop :=
  ∀ (s : State) (x : Int), s.cur.ratio = f64OfNat 1 → s.cur.idx = f64OfNat s.cur.n →
    s.cur.n + 1 < 2 ^ 53 →
    srcLoop binary64 x srcFuel s = .done ((forward x s).setIdx (f64OfNat (s.cur.n + 1)))

/-! CursorNum (41_resampler.md R90, R91). -/

/-- `fadd(a, b) >= a`. -/
def Obligations.SumNeverBelowItsOperand : Prop :=
  ∀ a b : F64, f64Real a = true → f64Real b = true →
    a.toNat ≤ (f64Add a b).toNat ∧ f64Scaled a ≤ f64Scaled (f64Add a b)

/-- `of_nat` and `ffloor` are exact below 2^53. -/
def Obligations.NaturalsBelowTwoToThe53AreExact : Prop :=
  ∀ k : Nat, k < 2 ^ 53 → f64Real (f64OfNat k) = true ∧ f64Scaled (f64OfNat k) = k * f64Unit ∧
    f64Floor (f64OfNat k) = k

/-- `fadd` and `fdiv` are correctly rounded, to nearest and ties to even. -/
def Obligations.SumsAndQuotientsAreCorrectlyRounded : Prop :=
  ∀ a b : F64, f64Real a = true → f64Real b = true →
    (f64Real (f64Add a b) = true → NearestEven (f64Scaled a + f64Scaled b) 1 (f64Add a b)) ∧
    (0 < f64Scaled b → f64Real (f64Div a b) = true →
      NearestEven (f64Scaled a * f64Unit) (f64Scaled b) (f64Div a b))

/-- The latched ratio is finite, greater than 0 and at most 2^32; 1.0 for equal rates. -/
def Obligations.LatchedRatioIsPositive : Prop :=
  ∀ r : ConfigRegs, r.srcRate ≠ 0 → r.tgtRate ≠ 0 →
    f64Real (srcRatio binary64 r) = true ∧ 0 < f64Scaled (srcRatio binary64 r) ∧
    f64Scaled (srcRatio binary64 r) ≤ 2 ^ 32 * f64Unit ∧
    (r.srcRate = r.tgtRate → srcRatio binary64 r = f64OfNat 1)

/-! Refusals (60_exceptions.md). -/

/-- R143, R145: a refusal condition of the table refuses the command, the first of several giving the code,
for every Config; a reserved header is refused with ERR_OP; there is no other cause. -/
def Obligations.RefusalCausesAreComplete : Prop :=
  (∀ (cfg : Config) (i : Instr) (s : State) (e : ErrCode), RefusedWith cfg.hasSF i s e →
    execWith cfg i s = .next (refuse e s)) ∧
  (∀ (cfg : Config) (i : Instr) (s t : State), Accepted cfg.hasSF i s →
    execWith cfg i s = .next t → i = .rst ∨ t.status.err = s.status.err) ∧
  (∀ (c : Command) (s : State), c.header.toNat / 8 % 2 = 1 ∨ c.header.toNat % 8 = 7 →
    execCommand c s = .next (refuse .op s)) ∧
  (∀ (i : Instr) (s : State), exec i s = execWith referenceConfig i s)

/-- R140: a refused command changes nothing but ERR. -/
def Obligations.RefusedCommandChangesOnlyErr : Prop :=
  ∀ (e : ErrCode) (s : State), ∃ err, refuse e s = { s with status := { s.status with err := err } }

/-- R141: ERR keeps the first code, and only RST clears it. -/
def Obligations.FirstErrorIsKept : Prop :=
  ∀ s : State,
    (∀ e, s.status.err = none → (refuse e s).status.err = some e) ∧
    (∀ e d, s.status.err = some d → (refuse e s).status.err = some d) ∧
    (∀ i t d, s.status.err = some d → exec i s = .next t → i ≠ .rst → t.status.err = some d) ∧
    ∃ t, exec .rst s = .next t ∧ t.status.err = none

/-! The whole machine. -/

/-- R134: the transitions of MODE. -/
def Obligations.ModeTransitions : Prop :=
  ∀ (i : Instr) (s t : State), exec i s = .next t →
    (i = .rst ∧ t.status.mode = .idle) ∨
    (i = .start ∧ s.status.mode = .idle ∧ t.status.mode = .run) ∨
    (i = .endRun ∧ s.status.mode = .run ∧ t.status.mode = .idle) ∨
    (i ≠ .rst ∧ t.status.mode = s.status.mode)

/-- R165, R123: only an accepted CFG, in IDLE, and RST change a configuration register. -/
def Obligations.ConfigurationFrozenInRun : Prop :=
  ∀ (i : Instr) (s t : State), exec i s = .next t → t.regs ≠ s.regs →
    i = .rst ∨ s.status.mode = .idle ∧ ∃ a v, i = .cfg a v

/-- R17: only START and RST change the ratio. -/
def Obligations.RatioLatchedByStartAlone : Prop :=
  ∀ (i : Instr) (s t : State), exec i s = .next t → t.cur.ratio ≠ s.cur.ratio → i = .rst ∨ i = .start

/-- R42, R43: OUT and RESP only grow; SAMPLE, FRAME and END alone push, RD alone delivers, one word; no
command touches the commands still to come. -/
def Obligations.ChannelsOnlyGrow : Prop :=
  ∀ (i : Instr) (s t : State), exec i s = .next t → t.chan.cmd = s.chan.cmd ∧
    (∃ bytes, t.chan.out = s.chan.out ++ bytes ∧
      (bytes ≠ [] → (∃ b, i = .sample b) ∨ (∃ p, i = .frame p) ∨ i = .endRun)) ∧
    (∃ words, t.chan.resp = s.chan.resp ++ words ∧
      (words ≠ [] → words.length = 1 ∧ ∃ a, i = .rd a))

/-- R173: RST, CFG, RD, START and END always complete; SAMPLE and FRAME complete, hang (R168; as a fault,
notes/assumptions/4.md), or are refused by the model at the run length of R170 (notes/assumptions/5.md). -/
def Obligations.OnlySampleAndFrameCanStop : Prop :=
  ∀ (i : Instr) (s : State), (∃ t, exec i s = .next t) ∨
    ((∃ b, i = .sample b) ∨ (∃ p, i = .frame p)) ∧ s.status.mode = .run ∧
      ((∃ frozen x, exec i s = .fault (.srcHang frozen x)) ∨
        2 ^ 53 ≤ s.cur.n + 1 ∧ exec i s = .refused .runTooLong)

/-- R33: two idle states with the same configuration begin the same run, and from states that agree on the
data path any further commands push the same bytes, whatever W_UNSUP, ERR and the channels hold. -/
def Obligations.OutputIndependentOfHistory : Prop :=
  (∀ s1 s2 t1 : State, s1.status.mode = .idle → s2.status.mode = .idle → s1.regs = s2.regs →
    s1.regs.srcRate ≠ 0 → s1.regs.tgtRate ≠ 0 → exec .start s1 = .next t1 →
    ∃ t2, exec .start s2 = .next t2 ∧ SameDataPath t1 t2) ∧
  (∀ (is : List Instr) (s1 s2 t1 : State), SameDataPath s1 s2 → execAll is s1 = .next t1 →
    ∃ t2 bytes, execAll is s2 = .next t2 ∧ SameDataPath t1 t2 ∧
      t1.chan.out = s1.chan.out ++ bytes ∧ t2.chan.out = s2.chan.out ++ bytes)

/-- The invariant holds right after reset. -/
def Obligations.InvariantHoldsAtReset : Prop := Inv State.reset

/-- Every step from a state of the invariant, reached or not, gives a state of the invariant. -/
def Obligations.StepKeepsTheInvariant : Prop :=
  ∀ s t : State, Inv s → step s = .next t → Inv t

/-- R133: the Samples of a run may come by SAMPLE or by accepted FRAMEs, with RD commands of legal addresses
anywhere between. The bytes are Encode of the Samples; each RD delivers one word. -/
def Obligations.AnyRunPushesEncode : Prop :=
  ∀ (s : State) (is : List Instr) (bytes : List Byte), s.status.mode = .idle →
    s.regs.srcRate ≠ 0 → s.regs.tgtRate ≠ 0 →
    (∀ i, i ∈ is → (presentedSample s.regs i).isSome = true ∨ ∃ a : RegAddr, i = .rd a ∧ a.toNat ≤ 9) →
    (is.filterMap (presentedSample s.regs)).length < 2 ^ 53 →
    encodeRun binary64 (is.filterMap (presentedSample s.regs)) s.regs = some bytes →
    ∃ t, execAll (.start :: (is ++ [.endRun])) s = .next t ∧
      t.chan.out = s.chan.out ++ bytes ∧ t.chan.cmd = s.chan.cmd ∧
      t.chan.resp.length + (is.filterMap (presentedSample s.regs)).length = s.chan.resp.length + is.length ∧
      t.status.mode = .idle ∧ t.status.err = s.status.err ∧ t.bits = ⟨0, 0⟩ ∧ t.regs = s.regs ∧
      t.cur.n = (is.filterMap (presentedSample s.regs)).length
end

