-- ==== Sys2Proof/Laws/Binary64.lean ====
section
/-! SUPPORT. The number format of the cursor: the value of a rounded quotient and how far it is from the
exact one; the order of patterns is the order of values. -/

namespace Sys2Proof.Machine

@[simp] theorem referenceConfig_hasSF : referenceConfig.hasSF = true := rfl
@[simp] theorem referenceConfig_divMode : referenceConfig.divMode = .floor := rfl
@[simp] theorem referenceConfig_cursor : referenceConfig.cursor = binary64 := rfl
@[simp] theorem binary64_ofNat : binary64.ofNat = f64OfNat := rfl
@[simp] theorem binary64_fdiv : binary64.fdiv = f64Div := rfl
@[simp] theorem binary64_fadd : binary64.fadd = f64Add := rfl
@[simp] theorem binary64_flt : binary64.flt = f64Less := rfl
@[simp] theorem binary64_ffloor : binary64.ffloor = f64Floor := rfl

/-- 1.0 is more than nothing: the unit can be cancelled. -/
theorem f64Unit_pos : 0 < f64Unit := by decide +kernel

/-- The unit as a power, with the exponent as a variable so that nothing evaluates it. -/
theorem f64Unit_eq_pow (n : Nat) (h : n = 1074) : f64Unit = 2 ^ n := by
  subst h
  unfold f64Unit
  rfl

/-- With a significand of at most 2^53 at `drop` bits, the pattern `drop * 2^52 + m` has the value
`m * 2^drop` (normal, subnormal and carried significands alike). -/
theorem f64Scaled_pattern (x : F64) (drop m : Nat) (hx : x.toNat = drop * 2 ^ 52 + m)
    (hm : m ≤ 2 ^ 53) (hnormal : drop ≠ 0 → 2 ^ 52 ≤ m) : f64Scaled x = m * 2 ^ drop := by
  unfold f64Scaled
  dsimp only
  rw [hx]
  rcases Nat.lt_or_ge m (2 ^ 52) with hlt | hge
  · have hd : drop = 0 := by
      by_contra h
      exact absurd (hnormal h) (by omega)
    subst hd
    have h0 : (0 * 2 ^ 52 + m) / 2 ^ 52 = 0 := by omega
    have h1 : (0 * 2 ^ 52 + m) % 2 ^ 52 = m := by omega
    rw [h0, h1, if_pos rfl, Nat.pow_zero, Nat.mul_one]
  · rcases Nat.lt_or_ge m (2 ^ 53) with hlt' | hge'
    · have h0 : (drop * 2 ^ 52 + m) / 2 ^ 52 = drop + 1 := by omega
      have h1 : (drop * 2 ^ 52 + m) % 2 ^ 52 = m - 2 ^ 52 := by omega
      have h2 : 2 ^ 52 + (m - 2 ^ 52) = m := by omega
      rw [h0, h1, h2, if_neg (Nat.succ_ne_zero _), Nat.add_sub_cancel]
    · have hm' : m = 2 ^ 53 := by omega
      have h0 : (drop * 2 ^ 52 + m) / 2 ^ 52 = drop + 2 := by omega
      have h1 : (drop * 2 ^ 52 + m) % 2 ^ 52 = 0 := by omega
      rw [h0, h1, if_neg (by omega), hm', show drop + 2 - 1 = drop + 1 by omega, Nat.pow_succ]
      ring

/-- The significand is the exact quotient to within half a unit in its last place. -/
theorem f64Significand_error (num den drop : Nat) (hden : 0 < den) :
    2 * num ≤ (2 * f64Significand num den drop + 1) * (den * 2 ^ drop) ∧
    (2 * f64Significand num den drop) * (den * 2 ^ drop) ≤ 2 * num + den * 2 ^ drop := by
  have hd : 0 < den * 2 ^ drop := Nat.mul_pos hden (Nat.two_pow_pos _)
  have hdm := Nat.div_add_mod num (den * 2 ^ drop)
  have hlt := Nat.mod_lt num hd
  unfold f64Significand
  dsimp only
  generalize den * 2 ^ drop = d at *
  generalize num / d = m at *
  generalize num % d = r at *
  subst hdm
  split
  case isTrue h =>
    have hr : d ≤ 2 * r := by omega
    constructor <;> nlinarith
  case isFalse h =>
    have hr : 2 * r ≤ d := by omega
    constructor <;> nlinarith

/-- The significand that `f64Round` chooses has at most 53 bits, or has just carried to 2^53. -/
theorem f64Significand_le (num den : Nat) :
    f64Significand num den (Nat.log2 (num / den) - 52) ≤ 2 ^ 53 := by
  have hq : num / (den * 2 ^ (Nat.log2 (num / den) - 52)) < 2 ^ 53 := by
    rw [← Nat.div_div_eq_div_mul]
    apply Nat.div_lt_of_lt_mul
    rw [← Nat.pow_add]
    rcases Nat.eq_zero_or_pos (num / den) with h | h
    · rw [h]; exact Nat.two_pow_pos _
    · exact lt_of_lt_of_le Nat.lt_log2_self (Nat.pow_le_pow_right (by omega) (by omega))
  unfold f64Significand
  dsimp only
  split <;> omega

/-- The significand that `f64Round` chooses is normal unless no bit is dropped. -/
theorem le_f64Significand (num den : Nat) (hdrop : Nat.log2 (num / den) - 52 ≠ 0) :
    2 ^ 52 ≤ f64Significand num den (Nat.log2 (num / den) - 52) := by
  have hpos : num / den ≠ 0 := by
    intro h
    simp [h] at hdrop
  have hq : 2 ^ 52 ≤ num / (den * 2 ^ (Nat.log2 (num / den) - 52)) := by
    rw [← Nat.div_div_eq_div_mul, Nat.le_div_iff_mul_le (Nat.two_pow_pos _), ← Nat.pow_add]
    exact le_trans (Nat.pow_le_pow_right (by omega) (by omega)) (Nat.log2_self_le hpos)
  unfold f64Significand
  dsimp only
  split <;> omega

/-- The pattern of a rounded quotient: below infinity it is the chosen significand at the chosen place. -/
theorem f64Round_toNat (num den : Nat) :
    (f64Round num den).toNat =
      min ((Nat.log2 (num / den) - 52) * 2 ^ 52 +
        f64Significand num den (Nat.log2 (num / den) - 52)) f64Infinity := by
  unfold f64Round
  rw [BitVec.toNat_ofNat, Nat.mod_eq_of_lt]
  exact lt_of_le_of_lt (Nat.min_le_right _ _) (by decide)

/-- The value of a rounded quotient that is finite. -/
theorem f64Scaled_round (num den : Nat) (hreal : f64Real (f64Round num den) = true) :
    f64Scaled (f64Round num den) =
      f64Significand num den (Nat.log2 (num / den) - 52) * 2 ^ (Nat.log2 (num / den) - 52) := by
  refine f64Scaled_pattern _ _ _ ?_ (f64Significand_le num den) (le_f64Significand num den)
  have h := f64Round_toNat num den
  unfold f64Real at hreal
  have := of_decide_eq_true hreal
  omega

/-- One value follows the other as one pattern follows the other: values never fall as patterns rise. -/
theorem f64Scaled_mono (x y : F64) (h : x.toNat ≤ y.toNat) : f64Scaled x ≤ f64Scaled y := by
  unfold f64Scaled
  have hx := Nat.div_add_mod x.toNat (2 ^ 52)
  have hy := Nat.div_add_mod y.toNat (2 ^ 52)
  have hfx := Nat.mod_lt x.toNat (Nat.two_pow_pos 52)
  have hfy := Nat.mod_lt y.toNat (Nat.two_pow_pos 52)
  generalize x.toNat / 2 ^ 52 = ex at *
  generalize x.toNat % 2 ^ 52 = fx at *
  generalize y.toNat / 2 ^ 52 = ey at *
  generalize y.toNat % 2 ^ 52 = fy at *
  have he : ex ≤ ey := by omega
  dsimp only
  split
  case isTrue h0 =>
    split
    · omega
    · exact le_trans (show fx ≤ 2 ^ 52 + fy by omega) (Nat.le_mul_of_pos_right _ (Nat.two_pow_pos _))
  case isFalse h0 =>
    rw [if_neg (by omega)]
    rcases Nat.lt_or_ge ex ey with hlt | hge
    · calc (2 ^ 52 + fx) * 2 ^ (ex - 1)
          ≤ 2 ^ 53 * 2 ^ (ex - 1) := Nat.mul_le_mul_right _ (by omega)
        _ = 2 ^ 52 * 2 ^ (ex - 1 + 1) := by rw [Nat.pow_succ 2 (ex - 1)]; ring
        _ ≤ 2 ^ 52 * 2 ^ (ey - 1) := Nat.mul_le_mul_left _ (Nat.pow_le_pow_right (by omega) (by omega))
        _ ≤ (2 ^ 52 + fy) * 2 ^ (ey - 1) := Nat.mul_le_mul_right _ (by omega)
    · have heq : ex = ey := by omega
      subst heq
      exact Nat.mul_le_mul_right _ (by omega)

/-- The significand and the place of any pattern, as `f64Scaled_pattern` reads them. -/
theorem f64_parts (y : F64) : ∃ drop m, y.toNat = drop * 2 ^ 52 + m ∧ m < 2 ^ 53 ∧
    (drop ≠ 0 → 2 ^ 52 ≤ m) ∧ f64Scaled y = m * 2 ^ drop := by
  rcases Nat.lt_or_ge y.toNat (2 ^ 52) with h | h
  · exact ⟨0, y.toNat, by omega, by omega, by omega, f64Scaled_pattern y 0 _ (by omega) (by omega) (by omega)⟩
  · refine ⟨y.toNat / 2 ^ 52 - 1, 2 ^ 52 + y.toNat % 2 ^ 52, by omega, by omega, by omega, ?_⟩
    exact f64Scaled_pattern y _ _ (by omega) (by omega) (by omega)

/-- A finite value at most the exact quotient is at most the rounded one. -/
theorem le_f64Round (num den : Nat) (y : F64) (hden : 0 < den) (hy : f64Real y = true)
    (h : f64Scaled y * den ≤ num) : y.toNat ≤ (f64Round num den).toNat := by
  rw [f64Round_toNat]
  have hinf : y.toNat < f64Infinity := of_decide_eq_true hy
  refine Nat.le_min.2 ⟨?_, hinf.le⟩
  obtain ⟨dy, my, hyn, hmy, hnorm, hsy⟩ := f64_parts y
  have hq : f64Scaled y ≤ num / den := (Nat.le_div_iff_mul_le hden).2 h
  generalize hd : Nat.log2 (num / den) - 52 = d
  have hdd : dy ≤ d := by
    rcases Nat.eq_zero_or_pos dy with h0 | h0
    · omega
    · have h1 : 2 ^ (52 + dy) ≤ num / den := by
        refine le_trans ?_ hq
        rw [hsy, Nat.pow_add]
        exact Nat.mul_le_mul_right _ (hnorm (by omega))
      have := (Nat.le_log2 (by have := Nat.two_pow_pos (52 + dy); omega)).2 h1
      omega
  rcases Nat.eq_or_lt_of_le hdd with heq | hlt
  · subst heq
    have hm : my ≤ num / (den * 2 ^ dy) := by
      rw [Nat.le_div_iff_mul_le (Nat.mul_pos hden (Nat.two_pow_pos _))]
      calc my * (den * 2 ^ dy) = my * 2 ^ dy * den := by ring
        _ ≤ num := by rw [← hsy]; exact h
    have : my ≤ f64Significand num den dy := by
      unfold f64Significand; dsimp only; split <;> omega
    omega
  · have := le_f64Significand num den (by omega)
    rw [hd] at this
    omega

/-- A finite value at least the exact quotient is at least the rounded one. -/
theorem f64Round_le (num den : Nat) (y : F64) (hden : 0 < den)
    (h : num ≤ f64Scaled y * den) : (f64Round num den).toNat ≤ y.toNat := by
  rw [f64Round_toNat]
  refine le_trans (Nat.min_le_left _ _) ?_
  obtain ⟨dy, my, hyn, hmy, hnorm, hsy⟩ := f64_parts y
  have hq : num / den ≤ f64Scaled y := by
    have := Nat.div_le_div_right (c := den) h
    rwa [Nat.mul_div_cancel _ hden] at this
  have hle := f64Significand_le num den
  generalize hd : Nat.log2 (num / den) - 52 = d at *
  have hdd : d ≤ dy := by
    rcases Nat.eq_zero_or_pos d with h0 | h0
    · omega
    · have hne : num / den ≠ 0 := by intro h1; rw [h1] at hd; simp at hd; omega
      have h1 : 2 ^ (52 + d) ≤ num / den := by
        refine le_trans (Nat.pow_le_pow_right (by omega) ?_) (Nat.log2_self_le hne)
        omega
      have h2 : f64Scaled y < 2 ^ (53 + dy) := by
        rw [hsy, Nat.pow_add]
        exact Nat.mul_lt_mul_of_pos_right hmy (Nat.two_pow_pos _)
      have := (Nat.pow_lt_pow_iff_right (by omega)).1 (lt_of_le_of_lt (le_trans h1 hq) h2)
      omega
  rcases Nat.eq_or_lt_of_le hdd with heq | hlt
  · subst heq
    have hD : 0 < den * 2 ^ d := Nat.mul_pos hden (Nat.two_pow_pos _)
    have hnum : num ≤ my * (den * 2 ^ d) := by
      calc num ≤ f64Scaled y * den := h
        _ = my * (den * 2 ^ d) := by rw [hsy]; ring
    have : f64Significand num den d ≤ my := by
      unfold f64Significand
      dsimp only
      have hdm := Nat.div_add_mod num (den * 2 ^ d)
      have hlt := Nat.mod_lt num hD
      generalize den * 2 ^ d = D at *
      generalize num / D = m at *
      generalize num % D = r at *
      have hmm : m ≤ my := by
        by_contra hc
        have : D * (my + 1) ≤ D * m := Nat.mul_le_mul_left _ (by omega)
        have : D * (my+1) = my * D + D := by ring
        omega
      rcases Nat.eq_or_lt_of_le hmm with h1 | h1
      · subst h1
        have : r = 0 := by have : D * m = m * D := by ring
                           omega
        subst this
        rw [if_neg (by omega)]
      · split <;> omega
    omega
  · have := hnorm (by omega)
    omega

/-- A value that binary64 holds exactly is not changed by rounding. -/
theorem f64Round_exact (num den : Nat) (y : F64) (hden : 0 < den) (hy : f64Real y = true)
    (h : num = f64Scaled y * den) : f64Round num den = y :=
  BitVec.eq_of_toNat_eq (le_antisymm (f64Round_le num den y hden h.le) (le_f64Round num den y hden hy h.ge))

end Sys2Proof.Machine
end

