-- ==== Sys2Proof/Laws/State.lean ====
section
/-! SUPPORT. One lemma per field per update of State and Status, each true by rfl, so that no later proof
unfolds a record update. -/

namespace Sys2Proof.Machine

section outPushFields
variable (s : State) (bytes : List Byte)
@[simp] theorem State.outPush_enc : (s.outPush bytes).enc = s.enc := rfl
@[simp] theorem State.outPush_bits : (s.outPush bytes).bits = s.bits := rfl
@[simp] theorem State.outPush_cur : (s.outPush bytes).cur = s.cur := rfl
@[simp] theorem State.outPush_regs : (s.outPush bytes).regs = s.regs := rfl
@[simp] theorem State.outPush_status : (s.outPush bytes).status = s.status := rfl
@[simp] theorem State.outPush_chan : (s.outPush bytes).chan = { s.chan with out := s.chan.out ++ bytes } := rfl
end outPushFields

section respondFields
variable (s : State) (v : Word)
@[simp] theorem State.respond_enc : (s.respond v).enc = s.enc := rfl
@[simp] theorem State.respond_bits : (s.respond v).bits = s.bits := rfl
@[simp] theorem State.respond_cur : (s.respond v).cur = s.cur := rfl
@[simp] theorem State.respond_regs : (s.respond v).regs = s.regs := rfl
@[simp] theorem State.respond_status : (s.respond v).status = s.status := rfl
@[simp] theorem State.respond_chan : (s.respond v).chan = { s.chan with resp := s.chan.resp ++ [v] } := rfl
end respondFields

section setCommandsFields
variable (s : State) (rest : List Command)
@[simp] theorem State.setCommands_enc : (s.setCommands rest).enc = s.enc := rfl
@[simp] theorem State.setCommands_bits : (s.setCommands rest).bits = s.bits := rfl
@[simp] theorem State.setCommands_cur : (s.setCommands rest).cur = s.cur := rfl
@[simp] theorem State.setCommands_regs : (s.setCommands rest).regs = s.regs := rfl
@[simp] theorem State.setCommands_status : (s.setCommands rest).status = s.status := rfl
@[simp] theorem State.setCommands_chan : (s.setCommands rest).chan = { s.chan with cmd := rest } := rfl
end setCommandsFields

section refuseFields
variable (s : State) (e : ErrCode)
@[simp] theorem refuse_enc : (refuse e s).enc = s.enc := rfl
@[simp] theorem refuse_bits : (refuse e s).bits = s.bits := rfl
@[simp] theorem refuse_cur : (refuse e s).cur = s.cur := rfl
@[simp] theorem refuse_regs : (refuse e s).regs = s.regs := rfl
@[simp] theorem refuse_status : (refuse e s).status = s.status.recordErr e := rfl
@[simp] theorem refuse_chan : (refuse e s).chan = s.chan := rfl
end refuseFields

section setModeFields
variable (s : State) (m : Mode)
@[simp] theorem State.setMode_enc : (s.setMode m).enc = s.enc := rfl
@[simp] theorem State.setMode_bits : (s.setMode m).bits = s.bits := rfl
@[simp] theorem State.setMode_cur : (s.setMode m).cur = s.cur := rfl
@[simp] theorem State.setMode_regs : (s.setMode m).regs = s.regs := rfl
@[simp] theorem State.setMode_status : (s.setMode m).status = s.status.setMode m := rfl
@[simp] theorem State.setMode_chan : (s.setMode m).chan = s.chan := rfl
end setModeFields

section setWUnsupFields
variable (s : State) (b : Bool)
@[simp] theorem State.setWUnsup_enc : (s.setWUnsup b).enc = s.enc := rfl
@[simp] theorem State.setWUnsup_bits : (s.setWUnsup b).bits = s.bits := rfl
@[simp] theorem State.setWUnsup_cur : (s.setWUnsup b).cur = s.cur := rfl
@[simp] theorem State.setWUnsup_regs : (s.setWUnsup b).regs = s.regs := rfl
@[simp] theorem State.setWUnsup_status : (s.setWUnsup b).status = s.status.setWUnsup b := rfl
@[simp] theorem State.setWUnsup_chan : (s.setWUnsup b).chan = s.chan := rfl
end setWUnsupFields

section setIdxFields
variable (s : State) (v : F64)
@[simp] theorem State.setIdx_enc : (s.setIdx v).enc = s.enc := rfl
@[simp] theorem State.setIdx_bits : (s.setIdx v).bits = s.bits := rfl
@[simp] theorem State.setIdx_cur : (s.setIdx v).cur = { s.cur with idx := v } := rfl
@[simp] theorem State.setIdx_regs : (s.setIdx v).regs = s.regs := rfl
@[simp] theorem State.setIdx_status : (s.setIdx v).status = s.status := rfl
@[simp] theorem State.setIdx_chan : (s.setIdx v).chan = s.chan := rfl
end setIdxFields

section nextIndexFields
variable (s : State)
@[simp] theorem State.nextIndex_enc : s.nextIndex.enc = s.enc := rfl
@[simp] theorem State.nextIndex_bits : s.nextIndex.bits = s.bits := rfl
@[simp] theorem State.nextIndex_cur : s.nextIndex.cur = { s.cur with n := s.cur.n + 1 } := rfl
@[simp] theorem State.nextIndex_regs : s.nextIndex.regs = s.regs := rfl
@[simp] theorem State.nextIndex_status : s.nextIndex.status = s.status := rfl
@[simp] theorem State.nextIndex_chan : s.nextIndex.chan = s.chan := rfl
end nextIndexFields

section statusFields
variable (f : Status) (m : Mode) (b : Bool) (e : ErrCode)
@[simp] theorem Status.setMode_mode : (f.setMode m).mode = m := rfl
@[simp] theorem Status.setMode_wUnsup : (f.setMode m).wUnsup = f.wUnsup := rfl
@[simp] theorem Status.setMode_err : (f.setMode m).err = f.err := rfl
@[simp] theorem Status.setWUnsup_mode : (f.setWUnsup b).mode = f.mode := rfl
@[simp] theorem Status.setWUnsup_wUnsup : (f.setWUnsup b).wUnsup = b := rfl
@[simp] theorem Status.setWUnsup_err : (f.setWUnsup b).err = f.err := rfl
@[simp] theorem Status.recordErr_mode : (f.recordErr e).mode = f.mode := by
  unfold Status.recordErr; split <;> rfl
@[simp] theorem Status.recordErr_wUnsup : (f.recordErr e).wUnsup = f.wUnsup := by
  unfold Status.recordErr; split <;> rfl
end statusFields

/-- The first code is kept (R141), said as one equation. -/
theorem Status.recordErr_err (f : Status) (e : ErrCode) :
    (f.recordErr e).err = some (f.err.getD e) := by
  unfold Status.recordErr; split <;> simp_all

/-- Two states with equal fields are equal: the form in which a frame is shown. -/
theorem State.eq_of_fields (s t : State) (henc : s.enc = t.enc) (hbits : s.bits = t.bits)
    (hcur : s.cur = t.cur) (hregs : s.regs = t.regs) (hstatus : s.status = t.status)
    (hchan : s.chan = t.chan) : s = t := by
  cases s; cases t; simp_all

end Sys2Proof.Machine
end

