-- ==== Sys2Proof/Laws/Ops.lean ====
section
/-! SUPPORT. For each shared operation, one lemma that says once everything it can do; later proofs cite it
instead of unfolding the operation. -/

namespace Sys2Proof.Machine

/-- A read succeeds exactly on the ten addresses of R20. -/
theorem readReg_isSome_iff (a : RegAddr) (s : State) : (readReg a s).isSome = decide (a.toNat ≤ 9) := by
  have h := a.isLt
  unfold readReg
  split <;> simp_all
  omega

/-- A write succeeds exactly on the four configuration registers, and says which one it writes. -/
theorem writeReg_cases (a : RegAddr) (v : Word) (r r' : ConfigRegs) (h : writeReg a v r = some r') :
    a.toNat = 0 ∧ r' = { r with srcRate := v } ∨
    a.toNat = 1 ∧ r' = { r with tgtRate := v } ∨
    a.toNat = 2 ∧ r' = { r with channels := v.setWidth 8 } ∨
    a.toNat = 3 ∧ r' = { r with width := v.setWidth 8 } := by
  unfold writeReg at h
  split at h <;> simp_all

theorem writeReg_eq_none_iff (a : RegAddr) (v : Word) (r : ConfigRegs) :
    writeReg a v r = none ↔ 3 < a.toNat := by
  unfold writeReg
  split <;> simp_all
  omega

/-- The two things BP.PUSH can do (R110). -/
theorem bpPush_cases (b : BitStream) (bit : Bool) :
    b.bitpos = 7 ∧ bpPush b bit = (BitStream.empty, [placeBit b bit]) ∨
    b.bitpos ≠ 7 ∧ bpPush b bit = (⟨placeBit b bit, b.bitpos + 1⟩, []) := by
  unfold bpPush
  split <;> simp_all

/-- The two things BP.FLUSH can do (R112). -/
theorem bpFlush_cases (b : BitStream) :
    b.bitpos ≠ 0 ∧ bpFlush b = (BitStream.empty, [b.acc]) ∨ b.bitpos = 0 ∧ bpFlush b = (b, []) := by
  unfold bpFlush
  split <;> simp_all

/-- `clamp` stays between its bounds (R7). -/
theorem clamp_mem (lo hi v : Int) (h : lo ≤ hi) : lo ≤ clamp lo hi v ∧ clamp lo hi v ≤ hi := by
  unfold clamp
  split
  · omega
  · split <;> omega

/-- `clamp` as a maximum of a minimum. -/
theorem clamp_eq_max_min (lo hi v : Int) (h : lo ≤ hi) : clamp lo hi v = max lo (min hi v) := by
  unfold clamp
  split
  · omega
  · split <;> omega

/-- What a fetch can do (R41). -/
theorem State.fetch_cases (s : State) :
    s.chan.cmd = [] ∧ s.fetch = none ∨
    ∃ c rest, s.chan.cmd = c :: rest ∧ s.fetch = some (c, s.setCommands rest) := by
  unfold State.fetch
  split <;> simp_all

/-- A command issued is the one fetched next, and the fetch leaves the state as it was before the issue. -/
theorem State.fetch_issue (s : State) (c : Command) : (s.issue c).fetch = some (c, s) := rfl

end Sys2Proof.Machine
end

