-- ==== Sys2Proof/Laws/Resampler.lean ====
section
/-! SUPPORT. What Forward and SRC.STEP leave alone, and the inversion lemmas of the loop (R93). -/

namespace Sys2Proof.Machine

section forwardFields
variable (x : Int) (s : State)
@[simp] theorem forward_enc : (forward x s).enc = (admStep s.enc x).1 := rfl
@[simp] theorem forward_bits : (forward x s).bits = (bpPush s.bits (admStep s.enc x).2).1 := rfl
@[simp] theorem forward_cur : (forward x s).cur = s.cur := rfl
@[simp] theorem forward_regs : (forward x s).regs = s.regs := rfl
@[simp] theorem forward_status : (forward x s).status = s.status := rfl
@[simp] theorem forward_cmd : (forward x s).chan.cmd = s.chan.cmd := rfl
@[simp] theorem forward_resp : (forward x s).chan.resp = s.chan.resp := rfl
@[simp] theorem forward_out :
    (forward x s).chan.out = s.chan.out ++ (bpPush s.bits (admStep s.enc x).2).2 := rfl
end forwardFields

section turnFields
variable (c : CursorNum) (x : Int) (s : State)
@[simp] theorem srcTurn_enc : (srcTurn c x s).enc = (admStep s.enc x).1 := rfl
@[simp] theorem srcTurn_bits : (srcTurn c x s).bits = (bpPush s.bits (admStep s.enc x).2).1 := rfl
@[simp] theorem srcTurn_idx : (srcTurn c x s).cur.idx = c.fadd s.cur.idx s.cur.ratio := rfl
@[simp] theorem srcTurn_n : (srcTurn c x s).cur.n = s.cur.n := rfl
@[simp] theorem srcTurn_ratio : (srcTurn c x s).cur.ratio = s.cur.ratio := rfl
@[simp] theorem srcTurn_regs : (srcTurn c x s).regs = s.regs := rfl
@[simp] theorem srcTurn_status : (srcTurn c x s).status = s.status := rfl
@[simp] theorem srcTurn_cmd : (srcTurn c x s).chan.cmd = s.chan.cmd := rfl
@[simp] theorem srcTurn_resp : (srcTurn c x s).chan.resp = s.chan.resp := rfl
@[simp] theorem srcTurn_out :
    (srcTurn c x s).chan.out = s.chan.out ++ (bpPush s.bits (admStep s.enc x).2).2 := rfl
end turnFields

/-- `k` turns leave everything alone but the encoder, the packer, the cursor and OUT. -/
theorem srcTurns_frame (c : CursorNum) (x : Int) (k : Nat) (s : State) :
    (srcTurns c x k s).cur.n = s.cur.n ∧ (srcTurns c x k s).cur.ratio = s.cur.ratio ∧
    (srcTurns c x k s).cur.idx = cursorAfter c s.cur.ratio k s.cur.idx ∧
    (srcTurns c x k s).regs = s.regs ∧ (srcTurns c x k s).status = s.status ∧
    (srcTurns c x k s).chan.cmd = s.chan.cmd ∧ (srcTurns c x k s).chan.resp = s.chan.resp ∧
    ∃ bytes, (srcTurns c x k s).chan.out = s.chan.out ++ bytes := by
  induction k generalizing s with
  | zero => exact ⟨rfl, rfl, rfl, rfl, rfl, rfl, rfl, [], (List.append_nil _).symm⟩
  | succ k ih =>
    obtain ⟨h1, h2, h3, h4, h5, h6, h7, bytes, h8⟩ := ih (srcTurn c x s)
    exact ⟨h1, h2, h3, h4, h5, h6, h7, _, by rw [srcTurns, h8, srcTurn_out, List.append_assoc]⟩

/-- Everything the loop can do when it returns: some turns, each with the cursor on the index and moving,
then the cursor is off the index. -/
theorem srcLoop_done (c : CursorNum) (x : Int) (fuel : Nat) (s t : State)
    (h : srcLoop c x fuel s = .done t) :
    ∃ k, k < fuel ∧ t = srcTurns c x k s ∧ c.ffloor t.cur.idx ≠ t.cur.n ∧
      ∀ j, j < k → c.ffloor (srcTurns c x j s).cur.idx = s.cur.n := by
  induction fuel generalizing s with
  | zero => simp [srcLoop] at h
  | succ fuel ih =>
    rw [srcLoop] at h
    split at h
    case isTrue hon =>
      split at h
      · cases h
      · obtain ⟨k, hk, rfl, hoff, hall⟩ := ih _ h
        refine ⟨k + 1, by omega, rfl, hoff, fun j hj => ?_⟩
        cases j with
        | zero => exact hon
        | succ j => exact hall j (by omega)
    case isFalse hoff =>
      cases h
      exact ⟨0, by omega, rfl, hoff, fun j hj => absurd hj (by omega)⟩

/-- What SRC.STEP has done when it returns (R93). -/
theorem srcStep_done (c : CursorNum) (x : Int) (s t : State) (h : srcStep c x s = .done t) :
    s.regs.srcRate = s.regs.tgtRate ∧ t = (forward x s).nextIndex ∨
    s.regs.srcRate ≠ s.regs.tgtRate ∧ ∃ k, t = (srcTurns c x k s).nextIndex ∧
      c.ffloor (srcTurns c x k s).cur.idx ≠ s.cur.n ∧
      ∀ j, j < k → c.ffloor (srcTurns c x j s).cur.idx = s.cur.n := by
  unfold srcStep at h
  split at h
  case isTrue heq => cases h; exact .inl ⟨heq, rfl⟩
  case isFalse hne =>
    split at h
    case h_1 u hu =>
      cases h
      obtain ⟨k, -, rfl, hoff, hall⟩ := srcLoop_done c x _ s u hu
      rw [(srcTurns_frame c x k s).1] at hoff
      exact .inr ⟨hne, k, rfl, hoff, hall⟩
    case h_2 => cases h

/-- What `present` can answer as a next state. -/
theorem present_next (c : CursorNum) (x : Int) (s t : State) (h : present c x s = .next t) :
    s.cur.n + 1 < runLimit ∧ srcStep c x s = .done t := by
  unfold present at h
  split at h
  · cases h
  · next hn =>
    split at h
    · next u hu => cases h; exact ⟨by omega, hu⟩
    · cases h

/-- What SRC.STEP leaves alone whenever it returns. -/
theorem srcStep_frame (c : CursorNum) (x : Int) (s t : State) (h : srcStep c x s = .done t) :
    t.cur.n = s.cur.n + 1 ∧ t.cur.ratio = s.cur.ratio ∧ t.regs = s.regs ∧ t.status = s.status ∧
    t.chan.cmd = s.chan.cmd ∧ t.chan.resp = s.chan.resp ∧
    ∃ bytes, t.chan.out = s.chan.out ++ bytes := by
  obtain ⟨-, rfl⟩ | ⟨-, k, rfl, -, -⟩ := srcStep_done c x s t h
  · exact ⟨rfl, rfl, rfl, rfl, rfl, rfl, _, rfl⟩
  · obtain ⟨h1, h2, -, h4, h5, h6, h7, h8⟩ := srcTurns_frame c x k s
    exact ⟨by simp [h1], by simp [h2], by simp [h4], by simp [h5], by simp [h6], by simp [h7], by simpa using h8⟩

end Sys2Proof.Machine
end

