-- ==== Sys2Proof/Laws/Commands.lean ====
section
/-! SUPPORT. What each command can answer: a refusal of the spec, or its own effect. -/

namespace Sys2Proof.Machine

/-- CFG (R123): refused, or one configuration register written in IDLE. -/
theorem execCfg_cases (a : RegAddr) (v : Word) (s : State) :
    (∃ e, execCfg a v s = .next (refuse e s)) ∨
    ∃ r, s.status.mode = .idle ∧ writeReg a v s.regs = some r ∧
      execCfg a v s = .next { s with regs := r } := by
  unfold execCfg refused
  cases hm : s.status.mode with
  | run => exact .inl ⟨_, if_pos rfl⟩
  | idle =>
    cases hw : writeReg a v s.regs with
    | none => exact .inl ⟨.addr, by simp⟩
    | some r =>
      cases hb : isByteReg a && decide (v.toNat > 255) with
      | true => exact .inl ⟨.cfg, by simp⟩
      | false => exact .inr ⟨r, rfl, rfl, by simp⟩

/-- RD (R125): refused, or one word delivered. -/
theorem execRd_cases (a : RegAddr) (s : State) :
    execRd a s = .next (refuse .addr s) ∨
    ∃ v, readReg a s = some v ∧ execRd a s = .next (s.respond v) := by
  unfold execRd refused
  cases h : readReg a s with
  | none => exact .inl rfl
  | some v => exact .inr ⟨v, rfl, rfl⟩

/-- START under any Config (R127): refused, or a run begun. -/
theorem startWith_cases (cfg : Config) (s : State) :
    (∃ e, startWith cfg s = .next (refuse e s)) ∨
    s.status.mode = .idle ∧ s.regs.srcRate ≠ 0 ∧ s.regs.tgtRate ≠ 0 ∧
      startWith cfg s = .next (beginRun cfg.cursor s) := by
  unfold startWith refused
  cases hm : s.status.mode with
  | run => exact .inl ⟨_, if_pos rfl⟩
  | idle =>
    by_cases hz : s.regs.srcRate = 0 ∨ s.regs.tgtRate = 0
    · exact .inl ⟨.cfg, by rw [if_neg (by simp), if_pos hz]⟩
    · exact .inr ⟨rfl, fun h => hz (.inl h), fun h => hz (.inr h), by rw [if_neg (by simp), if_neg hz]⟩

/-- END (R132): refused, or the run finished. -/
theorem execEnd_cases (s : State) :
    execEnd s = .next (refuse .mode s) ∨
    s.status.mode = .run ∧ execEnd s = .next (finishRun s) := by
  unfold execEnd refused
  cases hm : s.status.mode with
  | idle => exact .inl (if_pos rfl)
  | run => exact .inr ⟨rfl, by simp⟩

/-- SAMPLE under any Config (R129): refused, or its Sample presented to SRC in RUN. -/
theorem sampleWith_cases (cfg : Config) (b : Byte) (s : State) :
    sampleWith cfg b s = .next (refuse .mode s) ∨
    s.status.mode = .run ∧ sampleWith cfg b s = present cfg.cursor (sampleOperand b) s := by
  unfold sampleWith refused
  cases hm : s.status.mode with
  | idle => exact .inl (if_pos rfl)
  | run => exact .inr ⟨rfl, by simp⟩

/-- FRAME under any Config (R131): refused, or the Sample of its frame presented to SRC in RUN. -/
theorem frameWith_cases (cfg : Config) (p : List Byte) (s : State) :
    (∃ e, frameWith cfg p s = .next (refuse e s)) ∨
    cfg.hasSF = true ∧ s.status.mode = .run ∧ s.regs.channels ≠ 0 ∧ frameLengthWrong p s.regs = false ∧
      frameWith cfg p s = present cfg.cursor
        (frameSample cfg.divMode p s.regs.channels.toNat s.regs.width.toNat) (flagWidth s) := by
  unfold frameWith refused
  cases hsf : cfg.hasSF with
  | false => exact .inl ⟨.op, by simp⟩
  | true =>
    cases hm : s.status.mode with
    | idle => exact .inl ⟨.mode, by simp⟩
    | run =>
      by_cases hc : s.regs.channels = 0
      · exact .inl ⟨.cfg, by simp [hc]⟩
      · cases hl : frameLengthWrong p s.regs with
        | true => exact .inl ⟨.len, by rw [if_neg (by simp), if_neg (by simp), if_neg hc, if_pos rfl]⟩
        | false =>
          exact .inr ⟨rfl, rfl, hc, rfl,
            by rw [if_neg (by simp), if_neg (by simp), if_neg hc, if_neg (by simp)]⟩

/-- W_UNSUP is all that the width flag writes, and only upward (R26, R131). -/
theorem flagWidth_cases (s : State) :
    widthSupported s.regs.width.toNat = true ∧ flagWidth s = s ∨
    widthSupported s.regs.width.toNat = false ∧ flagWidth s = s.setWUnsup true := by
  unfold flagWidth
  split <;> simp_all

end Sys2Proof.Machine
end

