-- ==== Sys2Proof/Laws/PerInstr.lean ====
section
/-! SUPPORT. Statements about every command as syntax, one lemma per constructor of Instr. -/

namespace Sys2Proof.Laws

/-- The operation code of R61. -/
def HeaderFields.opcode : Instr → Nat
  | .rst => 0
  | .cfg _ _ => 1
  | .rd _ => 2
  | .start => 3
  | .sample _ => 4
  | .frame _ => 5
  | .endRun => 6

/-- The encoder puts the operation code of R61 into header bits 2:0 and 0 into `rsv` (R60), and attaches a
payload to FRAME only (R41). -/
def HeaderFields.Statement (i : Instr) : Prop :=
  (encode i).header.toNat % 16 = HeaderFields.opcode i ∧
    (HeaderFields.opcode i ≠ 5 → (encode i).payload = [])

/-- The low four bits of a header made from its fields: `rsv` is 0 above `op`. -/
theorem ofFields_low (d : Word) (a : RegAddr) (op : BitVec 3) :
    (Header.ofFields d a op).toNat % 16 = op.toNat := by
  have h := op.isLt
  unfold Header.ofFields
  rw [BitVec.toNat_append, BitVec.toNat_append, ← Nat.shiftLeft_add_eq_or_of_lt h,
    ← Nat.shiftLeft_add_eq_or_of_lt (by decide : (0#1).toNat < 2 ^ 1)]
  simp only [Nat.shiftLeft_eq, BitVec.toNat_ofNat]
  omega

theorem HeaderFields.rst : HeaderFields.Statement .rst := by
  exact ⟨ofFields_low _ _ _, fun _ => rfl⟩
theorem HeaderFields.cfg (a : RegAddr) (v : Word) : HeaderFields.Statement (.cfg a v) := by
  exact ⟨ofFields_low _ _ _, fun _ => rfl⟩
theorem HeaderFields.rd (a : RegAddr) : HeaderFields.Statement (.rd a) := by
  exact ⟨ofFields_low _ _ _, fun _ => rfl⟩
theorem HeaderFields.start : HeaderFields.Statement .start := by
  exact ⟨ofFields_low _ _ _, fun _ => rfl⟩
theorem HeaderFields.sample (s : Byte) : HeaderFields.Statement (.sample s) := by
  exact ⟨ofFields_low _ _ _, fun _ => rfl⟩
theorem HeaderFields.frame (p : List Byte) : HeaderFields.Statement (.frame p) := by
  exact ⟨ofFields_low _ _ _, fun h => absurd rfl h⟩
theorem HeaderFields.endRun : HeaderFields.Statement .endRun := by
  exact ⟨ofFields_low _ _ _, fun _ => rfl⟩

end Sys2Proof.Laws
end

