-- ==== Sys2Proof/Tests/Slice0.lean ====
section
/-! SUPPORT. Tests with expected values from 95_test_vectors.md, ill-formed terms that WellFormed refuses, and
for every statement with hypotheses a witness that meets them. -/

namespace Sys2Proof.Tests

-- One theorem at a time: the kernel evaluations below need no thread each.
set_option Elab.async false

open Sys2Proof Sys2Proof.Machine

/-! Helpers. -/

/-- The next state, where there is one. -/
def nextOf : Host.Outcome State Fault Refusal → Option State
  | .next t => some t
  | _ => none

/-- Configuration registers from numbers. -/
def regsOf (src tgt channels width : Nat) : ConfigRegs :=
  ⟨BitVec.ofNat 32 src, BitVec.ofNat 32 tgt, BitVec.ofNat 8 channels, BitVec.ofNat 8 width⟩

/-- The reset state with other configuration registers. -/
def idle (src tgt channels width : Nat) : State := { State.reset with regs := regsOf src tgt channels width }

/-- The state START leaves. -/
def running (src tgt channels width : Nat) : State := beginRun binary64 (idle src tgt channels width)

/-- A run under equal rates with index `n`. -/
def runningAt (n : Nat) : State := (running 8000 8000 1 8).withIndex n

/-- A run under the smallest ratio, the cursor and the index at 2^22 (V2.4). -/
def stalled : State :=
  { running 1 4294967295 1 8 with
    cur := ⟨f64OfNat (2 ^ 22), 2 ^ 22, f64Div (f64OfNat 1) (f64OfNat 4294967295)⟩ }

/-- An idle state with a refusal behind it. -/
def refusedOnce : State := refuse .len (idle 8000 8000 1 8)

/-! Decode: headers of 95_test_vectors.md, and words written out bit by bit from 30_encoding.md R60, as
data, addr, rsv, op. -/

/-- P1: RST. -/
theorem test_decode_rst : decodeTableWord 40 0b00000000000000000000000000000000_0000_0_000 = some .rst := by decide
/-- P3: CFG TGT_RATE, 24000, header 00005DC011. -/
theorem test_decode_cfg :
    decodeTableWord 40 0b00000000000000000101110111000000_0001_0_001 = some (.cfg 1 24000) ∧
    decodeTableWord 40 0x00005DC011 = some (.cfg 1 24000) := by decide
/-- R62: the address is bits 7:4. -/
theorem test_decode_rd : decodeTableWord 40 0b00000000000000000000000000000000_1001_0_010 = some (.rd 9) := by decide
theorem test_decode_start : decodeTableWord 40 0b00000000000000000000000000000000_0000_0_011 = some .start := by decide
/-- R63, V5 line 12: only the low byte of `data` is read. -/
theorem test_decode_sample :
    decodeTableWord 40 0b00000000111111111111111110011100_0000_0_100 = some (.sample 0x9C) ∧
    sampleOperand 0x9C = -100 := by decide
/-- The payload follows the header, its first byte lowest (notes/assumptions/3.md). -/
theorem test_decode_frame : decodeTableWord 56 0x80010000000005 = some (.frame [0x01, 0x80]) := by decide
theorem test_decode_end : decodeTableWord 40 0b00000000000000000000000000000000_0000_0_110 = some .endRun := by decide
/-- R69: `rsv` = 1 before any operation code; `op` = 7. -/
theorem test_decode_reserved :
    decode ⟨0b1111, []⟩ = .reserved .rsvBit ∧ decode ⟨0b1000, []⟩ = .reserved .rsvBit ∧
    decode ⟨0b0111, []⟩ = .reserved .opSeven := by decide
/-- The headers of P1, as an assembler writes them (R73). -/
theorem test_encode :
    encode (.cfg 0 48000) = ⟨0x0000BB8001, []⟩ ∧ encode (.sample (BitVec.ofInt 8 (-100))) = ⟨0x0000009C04, []⟩ ∧
    encode (.rd 4) = ⟨0x0000000042, []⟩ ∧ encode (.frame [1, 2]) = ⟨0x0000000005, [1, 2]⟩ ∧
    encode .endRun = ⟨0x0000000006, []⟩ := by decide

/-! WellFormed: one ill-formed term for each check. -/

theorem test_wellFormed_refuses_cfg_status : Instr.wellFormed (.cfg 4 0) = false := by decide
theorem test_wellFormed_refuses_rd_ten : Instr.wellFormed (.rd 10) = false := by decide
theorem test_wellFormed_accepts :
    Instr.wellFormed (.cfg 3 0) = true ∧ Instr.wellFormed (.rd 9) = true := by decide
theorem test_canonical_refuses_rsv : Command.canonical ⟨0x8, []⟩ = false := by decide
theorem test_canonical_refuses_op_seven : Command.canonical ⟨0x7, []⟩ = false := by decide
theorem test_canonical_refuses_addr : Command.canonical ⟨0x10, []⟩ = false := by decide
theorem test_canonical_refuses_data : Command.canonical ⟨0x10004, []⟩ = false := by decide
theorem test_canonical_refuses_low_data : Command.canonical ⟨0x103, []⟩ = false := by decide
theorem test_canonical_refuses_payload : Command.canonical ⟨0x4, [0]⟩ = false := by decide
theorem test_pseudo_refuses_samples : Pseudo.wellFormed (.samples [0, 128]) = false := by decide
theorem test_pseudo_refuses_encode : Pseudo.wellFormed (.encode [-129]) = false := by decide
theorem test_pseudo_refuses_frame8 : Pseudo.wellFormed (.frame8 [256]) = false := by decide
theorem test_pseudo_refuses_frame16 : Pseudo.wellFormed (.frame16 [32768]) = false := by decide
theorem test_pseudo_refuses_setup : Pseudo.wellFormed (.setup 4294967296 1 1 8) = false := by decide
/-- P2: FRAME16 -300, -200 is the payload D4 FE 38 FF (R74). -/
theorem test_pseudo_frame16 :
    (Pseudo.frame16 [-300, -200]).expand = [.frame [0xD4, 0xFE, 0x38, 0xFF]] := by decide

/-! SF (V1). -/

/-- V1.1 -/
theorem test_conv8 : [0x00, 0x7F, 0x80, 0x9C, 0xFF].map conv8 = [-128, -1, 0, 28, 127] := by decide
/-- V1.2, floor -/
theorem test_conv16_floor :
    conv16 .floor 0xFF 0xFF = -1 ∧ conv16 .floor 0xFF 0xFE = -2 ∧ conv16 .floor 0x00 0x80 = -128 ∧
    conv16 .floor 0x34 0x12 = 18 := by decide
/-- V1.2, trunc -/
theorem test_conv16_trunc :
    conv16 .trunc 0xFF 0xFF = 0 ∧ conv16 .trunc 0xFF 0xFE = -1 ∧ conv16 .trunc 0x01 0x80 = -127 := by decide
/-- V1.3: width reduction first, averaging second. -/
theorem test_frameSample_floor :
    frameSample .floor [0xE0, 0xB1, 0xF0, 0xD8] 2 16 = -60 ∧
    frameSample .floor [0xFF, 0x00, 0x01, 0x01] 2 16 = 0 ∧ frameSample .floor [0x7D, 0x7C] 2 8 = -4 ∧
    frameSample .floor [1, 2, 3, 4, 5, 6] 2 24 = 0 := by decide
/-- V1.3, trunc -/
theorem test_frameSample_trunc :
    frameSample .trunc [0xE0, 0xB1, 0xF0, 0xD8] 2 16 = -58 ∧ frameSample .trunc [0x7D, 0x7C] 2 8 = -3 := by decide

/-! SRC and CursorNum (V2). -/

/-- V2.1, V2.3: the patterns of the ratios. -/
theorem test_ratio :
    srcRatio binary64 (regsOf 8000 48000 0 0) = 0x3FC5555555555555 ∧
    srcRatio binary64 (regsOf 44100 48000 0 0) = 0x3FED666666666666 ∧
    srcRatio binary64 (regsOf 44100 8000 0 0) = 0x40160CCCCCCCCCCD := by decide +kernel
/-- V2.1 line 9 -/
theorem test_resample_up :
    resample binary64 [0, 1, 2, 3, 4, 5, 6, 7, 8, 9] (regsOf 44100 48000 0 0) =
      some [0, 0, 1, 2, 3, 4, 5, 6, 7, 8, 9] := by decide +kernel
/-- V2.3 line 8: seven samples for two, where exact arithmetic gives six. -/
theorem test_resample_rounding :
    resample binary64 [0, 1] (regsOf 1 3 0 0) = some [0, 0, 0, 1, 1, 1, 1] := by decide +kernel

/-! ADM (V3) and BP (V4). -/

/-- V3.1: (100, 10, 1) with 127, the upper charge clamp. -/
theorem test_adm_upper_clamp : admStep ⟨100, 10, true⟩ 127 = (⟨127, 11, true⟩, true) := by decide
/-- V3.1: the upper strength clamp and the lower charge clamp. -/
theorem test_adm_lower_clamp :
    admStep ⟨BitVec.ofInt 8 (-128), 63, false⟩ (-128) = (⟨BitVec.ofInt 8 (-128), 63, false⟩, false) := by decide
/-- V3.1: the lower strength clamp; V0.1: the golden scenario. -/
theorem test_adm_golden :
    admStep ⟨0, 0, true⟩ (-1) = (⟨BitVec.ofInt 8 (-2), 0, false⟩, false) ∧
    admRun EncoderState.initial [0, 50, 100, 100, 100, -100] =
      (⟨16, 2, false⟩, [false, true, true, true, true, false]) := by decide +kernel
/-- V4, last line -/
theorem test_bp :
    bpPushAll BitStream.empty [true, true, false, true, false, false, false, false, false, false, true] =
      (⟨0x04, 3⟩, [0x0B]) ∧ bpFlush ⟨0x04, 3⟩ = (BitStream.empty, [0x04]) := by decide

/-! Commands (V5, P). -/

/-- V5 line 20: RST after a SAMPLE that left seven bits pending. -/
theorem test_rst : nextOf (exec .rst { refusedOnce with bits := ⟨0x55, 7⟩ }) = some State.reset := by decide
/-- V5 line 6 -/
theorem test_cfg_channels :
    (nextOf (exec (.cfg 2 255) State.reset)).map (fun t => t.regs.channels) = some 255 ∧
    (nextOf (exec (.cfg 2 256) State.reset)).map (fun t => t.status.word) = some 0x40 := by decide
/-- V5 lines 7 and 13 -/
theorem test_cfg_refused :
    (nextOf (exec (.cfg 4 0) State.reset)).map (fun t => t.status.word) = some 0x30 ∧
    (nextOf (exec (.cfg 15 0) (runningAt 0))).map (fun t => t.status.word) = some 0x21 := by decide +kernel
/-- V5 line 1 and P1: TGT_RATE after reset; CHARGE = 16. -/
theorem test_rd :
    (nextOf (exec (.rd 1) State.reset)).map (fun t => t.chan.resp) = some [0xBB80] ∧
    (nextOf (exec (.rd 5) { State.reset with enc := ⟨16, 2, false⟩ })).map (fun t => t.chan.resp) =
      some [0x10] := by decide
/-- V5 lines 8 and 23 -/
theorem test_rd_refused :
    (nextOf (exec (.rd 10) State.reset)).map (fun t => (t.status.word, t.chan.resp)) = some (0x30, []) ∧
    (nextOf (exec (.rd 5) { State.reset with enc := ⟨BitVec.ofInt 8 (-6), 1, false⟩ })).map
      (fun t => t.chan.resp) = some [0xFFFFFFFA] := by decide
/-- V5 lines 2 and 14 -/
theorem test_start_refused :
    (nextOf (exec .start State.reset)).map (fun t => t.status.word) = some 0x40 ∧
    (nextOf (exec .start (runningAt 0))).map (fun t => t.status.word) = some 0x21 := by decide +kernel
/-- P2: ratio 2.0, MODE RUN. -/
theorem test_start : (nextOf (exec .start (idle 16000 8000 2 16))).map
    (fun t => (t.cur.ratio, t.status.word)) = some (0x4000000000000000, 0x01) := by decide +kernel
/-- V5 line 20: SAMPLE 1 at 8000 to 48000 is forwarded seven times. -/
theorem test_sample_up : (nextOf (exec (.sample 1) (running 8000 48000 0 0))).map
    (fun t => (t.bits, t.enc, t.cur.n, t.chan.out)) = some (⟨0x55, 7⟩, ⟨2, 0, true⟩, 1, []) := by decide +kernel
/-- V5 line 4 -/
theorem test_sample_refused : (nextOf (exec (.sample 5) State.reset)).map
    (fun t => (t.status.word, t.cur.n)) = some (0x20, 0) := by decide
/-- P3: FRAME C0 is the Sample 64, forwarded three times. -/
theorem test_frame : (nextOf (exec (.frame [0xC0]) (running 8000 24000 1 8))).map
    (fun t => (t.enc, t.bits, t.cur.n, t.cur.idx)) =
      some (⟨18, 2, true⟩, ⟨0x07, 3⟩, 1, 0x3FF0000000000000) := by decide +kernel
/-- V5 lines 15, 16 and 22 -/
theorem test_frame_refused :
    (nextOf (exec (.frame [0]) (running 8000 8000 0 0))).map (fun t => t.status.word) = some 0x41 ∧
    (nextOf (exec (.frame [0, 0, 0]) (running 8000 8000 2 16))).map (fun t => t.status.word) = some 0x51 ∧
    (nextOf (execWith ⟨false, .floor, binary64⟩ (.frame [0]) State.reset)).map (fun t => t.status.word) =
      some 0x10 := by decide +kernel
/-- P1: END pushes 1E. -/
theorem test_end : (nextOf (exec .endRun { runningAt 6 with bits := ⟨0x1E, 6⟩ })).map
    (fun t => (t.chan.out, t.bits, t.status.word)) = some ([0x1E], ⟨0, 0⟩, 0) := by decide +kernel
/-- V5 line 5 -/
theorem test_end_refused : (nextOf (exec .endRun State.reset)).map
    (fun t => (t.status.word, t.chan.out)) = some (0x20, []) := by decide
/-- V5 lines 9 to 11: reserved headers; ignored fields of RST. -/
theorem test_step :
    (nextOf (step (State.reset.withFetchWord 40 0x7))).map (fun t => t.status.word) = some 0x10 ∧
    (nextOf (step (State.reset.withFetchWord 40 0xA))).map (fun t => (t.status.word, t.chan.resp)) =
      some (0x10, []) ∧
    nextOf (step (refusedOnce.withFetchWord 40 0xFFFFFFFFF0)) = some State.reset := by decide

/-! Witnesses: for every statement with hypotheses a state and operands that meet them all, at boundary
values of each clause. Each is named after its statement. -/

theorem test_witness_CanonicalCommandReencodes :
    Command.canonical ⟨0xFFFFFFFFF1, []⟩ = true ∧ decode ⟨0xFFFFFFFFF1, []⟩ = .ok (.cfg 15 0xFFFFFFFF) ∧
    Command.canonical ⟨5, [7]⟩ = true ∧ decode ⟨5, [7]⟩ = .ok (.frame [7]) := by decide

theorem test_witness_AssemblerHeaderNumbers :
    IsSample (-128) ∧ IsSample 127 ∧ (encode (.sample (BitVec.ofInt 8 (-128)))).header.toNat = 0x8004 := by
  unfold IsSample; decide

theorem test_witness_FramePseudoInstructions :
    (Pseudo.frame8 [0, 255]).wellFormed = true ∧ (Pseudo.frame16 [-32768, 32767]).wellFormed = true := by decide

theorem test_witness_StepRunsTheDecodedCommand :
    (∃ s : State, s.chan.cmd = ⟨0x42, []⟩ :: [⟨6, []⟩] ∧ decode ⟨0x42, []⟩ = .ok (.rd 4)) ∧
    State.reset.chan.cmd = [] ∧ decodeTableWord 40 6 = some .endRun :=
  ⟨⟨State.reset.setCommands [⟨0x42, []⟩, ⟨6, []⟩], by decide⟩, by decide⟩

theorem test_witness_ReservedHeaderRecordsErrOp :
    (State.reset.issue ⟨8, []⟩).chan.cmd = ⟨8, []⟩ :: [] ∧ (8#40).toNat / 8 % 2 = 1 ∧
    (State.reset.issue ⟨7, [1]⟩).chan.cmd = ⟨7, [1]⟩ :: [] ∧ (7#40).toNat % 8 = 7 := by decide

theorem test_witness_CfgFollowsItsRule :
    (runningAt 0).status.mode = .run ∧ State.reset.status.mode = .idle ∧ 3 < (4#4).toNat ∧
    ((2#4).toNat = 2 ∧ 255 < (256#32).toNat) ∧ ((3#4).toNat = 3 ∧ 255 < (0xFFFFFFFF#32).toNat) ∧
    (1#4).toNat ≤ 1 ∧ ((3#4).toNat ≤ 3 ∧ (255#32).toNat ≤ 255) := by decide +kernel

theorem test_witness_RdDeliversTheRegisterWord : 9 < (10#4).toNat ∧ (9#4).toNat ≤ 9 := by decide

theorem test_witness_StartBeginsAFreshRun :
    (runningAt 0).status.mode = .run ∧
    ((idle 0 1 1 8).status.mode = .idle ∧ (idle 0 1 1 8).regs.srcRate = 0) ∧
    ((idle 1 0 1 8).status.mode = .idle ∧ (idle 1 0 1 8).regs.tgtRate = 0) ∧
    (idle 1 4294967295 1 8).status.mode = .idle ∧ (idle 1 4294967295 1 8).regs.srcRate ≠ 0 ∧
    (idle 1 4294967295 1 8).regs.tgtRate ≠ 0 := by decide +kernel

theorem test_witness_EndFlushesAndGoesIdle :
    State.reset.status.mode = .idle ∧
    ((runningAt 8).status.mode = .run ∧ (runningAt 8).bits.bitpos = 0) ∧
    ∃ s : State, s.status.mode = .run ∧ s.bits.bitpos ≠ 0 ∧ s.bits = ⟨0x7F, 7⟩ := by
  refine ⟨by decide, by decide +kernel, { runningAt 7 with bits := ⟨0x7F, 7⟩ }, by decide +kernel⟩

/-- A run in the middle of a byte. -/
theorem test_witness_EndedRunHoldsNoBits :
    ∃ s : State, Inv s ∧ s.status.mode = .run ∧ s.bits = ⟨0x7F, 7⟩ :=
  ⟨{ runningAt 7 with bits := ⟨0x7F, 7⟩ },
    ⟨by decide +kernel, by decide +kernel, by decide +kernel, by decide +kernel, fun _ => by decide +kernel,
      fun _ => by decide +kernel, fun _ h => absurd rfl h⟩, by decide +kernel, rfl⟩

theorem test_witness_PaddingBitsStayZero :
    ∀ i : Nat, (BitStream.mk 0x7F 7).bitpos.toNat ≤ i → (BitStream.mk 0x7F 7).acc.getLsbD i = false := by
  intro i hi
  have hi : 7 ≤ i := hi
  rcases Nat.lt_or_ge i 8 with h | h
  · have : i = 7 := by omega
    subst this
    decide
  · exact BitVec.getLsbD_of_ge _ _ h

theorem test_witness_ChannelSamplesByIndex :
    (8 = 8 ∧ [0x00, 0xFF].length = 2 ∧ 1 < 2) ∧ (16 = 16 ∧ [0x00, 0x80, 0xFF, 0x7F].length = 2 * 2) ∧
    channelSamples .trunc [0x00, 0x80, 0xFF, 0x7F] 2 16 = [-128, 127] ∧ 255 ≠ 8 ∧ 255 ≠ 16 := by decide

theorem test_witness_DownmixAverages : [-3, -4].Perm [-4, (-3 : Int)] ∧ 1 ≤ 1 :=
  ⟨List.Perm.swap _ _ _, le_refl _⟩

/-- One frame for each clause: WIDTH 8, WIDTH 16 with the most channels, another width with no payload. -/
theorem test_witness_FrameGivesOneSample :
    ((regsOf 1 1 1 8).channels ≠ 0 ∧ (regsOf 1 1 1 8).width = 8 ∧
      frameLengthWrong [0x9C] (regsOf 1 1 1 8) = false) ∧
    ((regsOf 1 1 255 16).channels ≠ 0 ∧ (regsOf 1 1 255 16).width = 16 ∧
      frameLengthWrong (List.replicate 510 0) (regsOf 1 1 255 16) = false) ∧
    ((regsOf 1 1 4 0).channels ≠ 0 ∧ (regsOf 1 1 4 0).width ≠ 8 ∧ (regsOf 1 1 4 0).width ≠ 16 ∧
      frameLengthWrong [] (regsOf 1 1 4 0) = false) := by
  decide +kernel

/-- The longest run the spec gives a meaning to, one sample before its end. -/
theorem test_witness_SampleUnderEqualRates :
    (runningAt (2 ^ 53 - 2)).status.mode = .run ∧
    (runningAt (2 ^ 53 - 2)).regs.srcRate = (runningAt (2 ^ 53 - 2)).regs.tgtRate ∧
    (runningAt (2 ^ 53 - 2)).cur.n + 1 < 2 ^ 53 := by decide +kernel

/-- P2, second frame: the cursor stands at 2.0, the index is 1. -/
theorem test_witness_SkippedSampleMovesOnlyTheIndex :
    ∃ s : State, s.status.mode = .run ∧ s.regs.srcRate ≠ s.regs.tgtRate ∧ s.cur.n + 1 < 2 ^ 53 ∧
      f64Floor s.cur.idx ≠ s.cur.n :=
  ⟨((running 16000 8000 2 16).setIdx (f64OfNat 2)).withIndex 1, by decide +kernel⟩

/-- V2.3 line 1: on the index for seven turns, off it after them. -/
theorem test_witness_SampleForwardsWhileTheCursorIsOnIt :
    (running 8000 48000 0 0).status.mode = .run ∧
    (running 8000 48000 0 0).regs.srcRate ≠ (running 8000 48000 0 0).regs.tgtRate ∧
    (running 8000 48000 0 0).cur.n + 1 < 2 ^ 53 ∧
    (∀ j, j < 7 → f64Floor (cursorAfter binary64 (running 8000 48000 0 0).cur.ratio j
      (running 8000 48000 0 0).cur.idx) = (running 8000 48000 0 0).cur.n) ∧
    f64Floor (cursorAfter binary64 (running 8000 48000 0 0).cur.ratio 7
      (running 8000 48000 0 0).cur.idx) ≠ (running 8000 48000 0 0).cur.n := by decide +kernel

/-- An accepted FRAME, shown by the absence of every cause. -/
theorem accepted_frame (s : State) (p : List Byte) (hmode : s.status.mode = .run)
    (hchannels : s.regs.channels ≠ 0) (hlen : frameLengthWrong p s.regs = false) :
    Accepted true (.frame p) s := by
  intro e h
  have hlen := of_decide_eq_false hlen
  rcases h with ⟨-, h⟩ | ⟨-, h⟩ | ⟨-, h⟩ | ⟨-, ⟨hw, h⟩ | ⟨hw, h⟩⟩
  · cases h
  · rw [hmode] at h; cases h
  · exact hchannels h
  · exact hlen (.inl ⟨congrArg BitVec.toNat hw, h⟩)
  · exact hlen (.inr ⟨congrArg BitVec.toNat hw, h⟩)

/-- For FrameUnderEqualRates and FrameActsAsSampleOfItsFrame, under WIDTH 8. -/
theorem test_witness_FrameUnderEqualRates :
    Accepted true (.frame [0xC0]) (runningAt 0) ∧
    (runningAt 0).regs.srcRate = (runningAt 0).regs.tgtRate ∧ (runningAt 0).cur.n + 1 < 2 ^ 53 :=
  ⟨accepted_frame _ _ (by decide +kernel) (by decide +kernel) (by decide +kernel), by decide +kernel⟩

/-- The same two statements under an unsupported width. -/
theorem test_witness_FrameActsAsSampleOfItsFrame : Accepted true (.frame [1]) (running 1 2 255 0) :=
  accepted_frame _ _ (by decide +kernel) (by decide +kernel) (by decide +kernel)

theorem test_witness_UnsupportedWidthEncodesZero :
    (running 5 5 4 255).status.mode = .run ∧ (running 5 5 4 255).regs.channels ≠ 0 ∧
    (running 5 5 4 255).regs.width ≠ 8 ∧ (running 5 5 4 255).regs.width ≠ 16 ∧
    (running 5 5 4 255).regs.srcRate = (running 5 5 4 255).regs.tgtRate ∧
    (running 5 5 4 255).cur.n + 1 < 2 ^ 53 := by decide +kernel

theorem test_witness_RunOfTwoToThe53Refused :
    (runningAt (2 ^ 53 - 1)).status.mode = .run ∧ 2 ^ 53 ≤ (runningAt (2 ^ 53 - 1)).cur.n + 1 ∧
    Accepted true (.frame [0]) (runningAt (2 ^ 53 - 1)) :=
  ⟨by decide +kernel, by decide +kernel,
    accepted_frame _ _ (by decide +kernel) (by decide +kernel) (by decide +kernel)⟩

/-- Where the sum is the cursor, it stays so. -/
theorem cursor_stays (ratio idx : F64) (h : f64Add idx ratio = idx) (k : Nat) :
    cursorAfter binary64 ratio k idx = idx := by
  induction k with
  | zero => rfl
  | succ k ih => rw [cursorAfter, binary64_fadd, h, ih]

/-- The loop never ends in the stalled state; it does in the running one. -/
theorem test_witness_HangExactlyWhereTheLoopNeverEnds :
    stalled.status.mode = .run ∧ stalled.cur.n + 1 < 2 ^ 53 ∧ stalled.regs.srcRate ≠ stalled.regs.tgtRate ∧
    (∀ k, f64Floor (cursorAfter binary64 stalled.cur.ratio k stalled.cur.idx) = stalled.cur.n) ∧
    (exec (.sample 0) stalled matches .fault (.srcHang _ _)) = true := by
  refine ⟨by decide +kernel, by decide +kernel, by decide +kernel, fun k => ?_, by decide +kernel⟩
  rw [cursor_stays _ _ (by decide +kernel)]
  decide +kernel

/-- The boundary of the safe bound: factor 2^21, index 2^32 - 1. -/
theorem test_witness_NoHangInsideTheSafeBound :
    ∃ s : State, Inv s ∧ Accepted true (.frame [0]) s ∧ Accepted true (.sample 0) s ∧ s.cur.n = 2 ^ 32 - 1 ∧
      s.regs.tgtRate.toNat = 2 ^ 21 * s.regs.srcRate.toNat := by
  refine ⟨((running 1 2097152 1 8).setIdx (f64OfNat (2 ^ 32 - 1))).withIndex (2 ^ 32 - 1),
    ⟨by decide +kernel, by decide +kernel, by decide +kernel, by decide +kernel, fun _ => by decide +kernel,
      fun _ => by decide +kernel, fun _ _ => by decide +kernel⟩,
    accepted_frame _ _ (by decide +kernel) (by decide +kernel) (by decide +kernel), ?_,
    by decide +kernel, by decide +kernel⟩
  rintro e ⟨-, h⟩
  revert h
  decide +kernel

/-- Where no addition passes `top`, which is below the length, the loop of Resample never ends. -/
theorem resampleLoop_none (xs : List Int) (ratio top : F64) (hlen : f64Real (f64OfNat xs.length) = true)
    (hbelow : f64Scaled top < f64Scaled (f64OfNat xs.length)) (htop : f64Real top = true)
    (hadd : ∀ idx : F64, f64Real idx = true → idx.toNat ≤ top.toNat → (f64Add idx ratio).toNat ≤ top.toNat)
    (fuel : Nat) (idx : F64) (hidx : idx.toNat ≤ top.toNat) :
    resampleLoop binary64 xs ratio fuel idx = none := by
  have hreal : ∀ y : F64, y.toNat ≤ top.toNat → f64Real y = true := fun y h =>
    decide_eq_true (lt_of_le_of_lt h (of_decide_eq_true htop))
  induction fuel generalizing idx with
  | zero => rfl
  | succ fuel ih =>
    have hless : f64Less idx (f64OfNat xs.length) = true := by
      have := lt_of_le_of_lt (f64Scaled_mono _ _ hidx) hbelow
      simp [f64Less, hreal idx hidx, hlen, this]
    have hrest := ih _ (hadd idx (hreal idx hidx) hidx)
    simp only [resampleLoop, binary64_flt, binary64_ofNat, binary64_fadd, hless, if_true, hrest]
    by_cases h : f64Add idx ratio = idx
    · rw [if_pos h]
    · rw [if_neg h]
      cases xs[binary64.ffloor idx]? <;> rfl

/-- V2.4: under the smallest ratio no addition passes 2^22. From 2^22 the sum stays; from the value below it
the exact sum does not reach past it. -/
theorem add_smallest_ratio (idx : F64) (hreal : f64Real idx = true) (h : idx.toNat ≤ 0x4150000000000000) :
    (f64Add idx (srcRatio binary64 (regsOf 1 4294967295 1 8))).toNat ≤ (0x4150000000000000 : F64).toNat := by
  have hratio : f64Real (srcRatio binary64 (regsOf 1 4294967295 1 8)) = true := by decide +kernel
  rcases Nat.eq_or_lt_of_le h with heq | hlt
  · obtain rfl : idx = 0x4150000000000000 := BitVec.eq_of_toNat_eq heq
    decide +kernel
  · have hbelow : f64Scaled idx ≤ f64Scaled (0x414FFFFFFFFFFFFF : F64) :=
      f64Scaled_mono _ _ (by rw [show (0x414FFFFFFFFFFFFF : F64).toNat = 0x414FFFFFFFFFFFFF from rfl]; omega)
    have hsum : f64Scaled (0x414FFFFFFFFFFFFF : F64) +
        f64Scaled (srcRatio binary64 (regsOf 1 4294967295 1 8)) ≤
        f64Scaled (0x4150000000000000 : F64) * 1 := by decide +kernel
    simp only [f64Add, hreal, hratio, Bool.and_self, if_true]
    exact f64Round_le _ _ _ (by omega) (le_trans (Nat.add_le_add_right hbelow _) hsum)

/-- Resample of 2^22 + 1 samples under the smallest ratio never ends. -/
theorem resample_none :
    resample binary64 (List.replicate (2 ^ 22 + 1) 0) (regsOf 1 4294967295 1 8) = none := by
  rw [resample, if_neg (by decide)]
  refine resampleLoop_none _ _ 0x4150000000000000 ?_ ?_ (by decide +kernel)
    (fun idx hreal h => add_smallest_ratio idx hreal h) _ _ (by decide +kernel)
  · rw [List.length_replicate]; decide +kernel
  · rw [List.length_replicate]; decide +kernel

/-- Both clauses: a Resample that ends, and one that does not. -/
theorem test_witness_StreamingResamplerIsBatchResampler :
    ((running 1 3 1 8).regs.srcRate ≠ 0 ∧ (running 1 3 1 8).regs.tgtRate ≠ 0 ∧
      (running 1 3 1 8).cur = ⟨posZero, 0, srcRatio binary64 (running 1 3 1 8).regs⟩ ∧
      resample binary64 [5, -7] (running 1 3 1 8).regs = some [5, 5, 5, -7, -7, -7, -7]) ∧
    ((running 1 4294967295 1 8).cur = ⟨posZero, 0, srcRatio binary64 (running 1 4294967295 1 8).regs⟩ ∧
      (List.replicate (2 ^ 22 + 1) (0 : Int)).length < 2 ^ 53 ∧
      resample binary64 (List.replicate (2 ^ 22 + 1) 0) (running 1 4294967295 1 8).regs = none) :=
  ⟨by decide +kernel, rfl, by rw [List.length_replicate]; decide, resample_none⟩

/-- Both clauses: V2.3 line 8 as a run, and a run that hangs. -/
theorem test_witness_WholeRunPushesEncode :
    ((idle 1 3 1 8).status.mode = .idle ∧ (∀ x, x ∈ [(127 : Int), -128] → IsSample x) ∧
      encodeRun binary64 [127, -128] (idle 1 3 1 8).regs = some [0x07]) ∧
    ((idle 1 4294967295 1 8).status.mode = .idle ∧
      (∀ x, x ∈ List.replicate (2 ^ 22 + 1) (0 : Int) → IsSample x) ∧
      encodeRun binary64 (List.replicate (2 ^ 22 + 1) 0) (idle 1 4294967295 1 8).regs = none) := by
  refine ⟨⟨rfl, by unfold IsSample; decide, by decide +kernel⟩, rfl, fun x hx => ?_, ?_⟩
  · rw [List.eq_of_mem_replicate hx]; unfold IsSample; decide
  · exact congrArg (Option.map _) resample_none

/-- P3 with two reads among its frames; the bytes are 87 01. -/
theorem test_witness_AnyRunPushesEncode :
    (idle 8000 24000 1 8).status.mode = .idle ∧
    (∀ i, i ∈ [Instr.frame [0xC0], .rd 5, .frame [0x40], .rd 9, .frame [0x80]] →
      (presentedSample (idle 8000 24000 1 8).regs i).isSome = true ∨ ∃ a : RegAddr, i = .rd a ∧ a.toNat ≤ 9) ∧
    [Instr.frame [0xC0], .rd 5, .frame [0x40], .rd 9, .frame [0x80]].filterMap
      (presentedSample (idle 8000 24000 1 8).regs) = [64, -64, 0] ∧
    encodeRun binary64 [64, -64, 0] (idle 8000 24000 1 8).regs = some [0x87, 0x01] := by
  refine ⟨rfl, fun i hi => ?_, by decide +kernel, by decide +kernel⟩
  simp only [List.mem_cons, List.not_mem_nil, or_false] at hi
  rcases hi with rfl | rfl | rfl | rfl | rfl
  · exact .inl (by decide +kernel)
  · exact .inr ⟨5, rfl, by decide⟩
  · exact .inl (by decide +kernel)
  · exact .inr ⟨9, rfl, by decide⟩
  · exact .inl (by decide +kernel)

theorem test_witness_GeneralBranchForwardsOnceAtRatioOne :
    ∃ s : State, s.cur.ratio = f64OfNat 1 ∧ s.cur.idx = f64OfNat s.cur.n ∧ s.cur.n + 1 = 2 ^ 53 - 1 :=
  ⟨{ idle 7 7 1 8 with cur := ⟨f64OfNat (2 ^ 53 - 2), 2 ^ 53 - 2, f64OfNat 1⟩ }, by decide +kernel⟩

/-- A sum that is rounded: 2^53 + 1 is a tie, and the even neighbour is 2^53. For SumNeverBelowItsOperand and
SumsAndQuotientsAreCorrectlyRounded. -/
theorem test_witness_SumsAndQuotientsAreCorrectlyRounded :
    f64Real (f64OfNat (2 ^ 53)) = true ∧ f64Real (f64OfNat 1) = true ∧
    f64Add (f64OfNat (2 ^ 53)) (f64OfNat 1) = f64OfNat (2 ^ 53) ∧ 0 < f64Scaled (f64OfNat 3) ∧
    f64Div (f64OfNat 1) (f64OfNat 3) = 0x3FD5555555555555 ∧
    f64Real (f64Div (f64OfNat 1) (f64OfNat 3)) = true := by decide +kernel

theorem test_witness_NaturalsBelowTwoToThe53AreExact :
    f64OfNat (2 ^ 53 - 1) = 0x433FFFFFFFFFFFFF ∧ f64Floor 0x433FFFFFFFFFFFFF = 2 ^ 53 - 1 := by decide +kernel

/-- Both ends of the range of the ratio, and equal rates. -/
theorem test_witness_LatchedRatioIsPositive :
    ((regsOf 1 4294967295 0 0).srcRate ≠ 0 ∧ (regsOf 1 4294967295 0 0).tgtRate ≠ 0) ∧
    ((regsOf 4294967295 1 0 0).srcRate ≠ 0 ∧ (regsOf 4294967295 1 0 0).tgtRate ≠ 0) ∧
    srcRatio binary64 (regsOf 4294967295 1 0 0) = f64OfNat 4294967295 ∧
    (regsOf 7 7 0 0).srcRate = (regsOf 7 7 0 0).tgtRate := by decide +kernel

/-- Every condition of FRAME at once: the first code, ERR_OP; and with SF present ERR_MODE. -/
theorem test_witness_RefusalCausesAreComplete :
    RefusedWith false (.frame [0]) State.reset .op ∧ RefusedWith true (.frame [0]) State.reset .mode ∧
    Accepted true (.rd 9) State.reset ∧ (8#40).toNat / 8 % 2 = 1 ∧ (7#40).toNat % 8 = 7 := by
  refine ⟨⟨.inl ⟨rfl, rfl⟩, fun d h => ?_⟩, ⟨.inr (.inl ⟨rfl, rfl⟩), fun d h => ?_⟩, fun e h => ?_, by decide⟩
  · cases d <;> simp [errNumber] at h
  · cases d <;> simp [errNumber] at h
    simp [RefusalCause]
  · simp [RefusalCause] at h

theorem test_witness_FirstErrorIsKept :
    State.reset.status.err = none ∧ refusedOnce.status.err = some .len ∧ Instr.start ≠ .rst ∧
    (nextOf (exec .endRun refusedOnce)).map (fun t => t.status.err) = some (some .len) := by decide +kernel

/-- A next state for each transition of MODE. -/
theorem test_witness_ModeTransitions :
    (nextOf (exec .rst (runningAt 3))).map (fun t => t.status.mode) = some .idle ∧
    (nextOf (exec .start (idle 1 1 1 8))).map (fun t => t.status.mode) = some .run ∧
    (nextOf (exec .endRun (runningAt 3))).map (fun t => t.status.mode) = some .idle ∧
    (nextOf (exec (.rd 10) (runningAt 3))).map (fun t => t.status.mode) = some .run := by decide +kernel

theorem test_witness_ConfigurationFrozenInRun :
    ∃ t, exec (.cfg 0 1) State.reset = .next t ∧ t.regs ≠ State.reset.regs :=
  ⟨idle 1 48000 0 0, rfl, by decide⟩

theorem test_witness_RatioLatchedByStartAlone :
    ∃ t, exec .start (idle 1 2 1 8) = .next t ∧ t.cur.ratio ≠ (idle 1 2 1 8).cur.ratio :=
  ⟨running 1 2 1 8, rfl, by decide +kernel⟩

/-- Both channels grow: a byte by END, a word by RD. -/
theorem test_witness_ChannelsOnlyGrow :
    (nextOf (exec .endRun { runningAt 7 with bits := ⟨0x7F, 7⟩ })).map (fun t => t.chan.out) = some ([] ++ [0x7F]) ∧
    (nextOf (exec (.rd 3) (runningAt 7))).map (fun t => t.chan.resp) = some ([] ++ [8]) := by decide +kernel

/-- Idle states with different histories and the same configuration; a run of two commands from each. -/
theorem test_witness_OutputIndependentOfHistory :
    (idle 8000 8000 1 8).status.mode = .idle ∧ refusedOnce.status.mode = .idle ∧
    (idle 8000 8000 1 8).regs = refusedOnce.regs ∧ (idle 8000 8000 1 8).regs.srcRate ≠ 0 ∧
    (idle 8000 8000 1 8).regs.tgtRate ≠ 0 ∧
    (∃ t, exec .start (idle 8000 8000 1 8) = .next t) ∧
    SameDataPath (runningAt 0) ((runningAt 0).setWUnsup true) ∧
    (nextOf (execAll [.frame [0xFF], .endRun] (runningAt 0))).map (fun t => t.chan.out) = some [0x01] :=
  ⟨rfl, rfl, rfl, by decide, by decide, ⟨_, rfl⟩, ⟨rfl, rfl, rfl, rfl, rfl⟩, by decide +kernel⟩

/-- The invariant in a run with a SAMPLE on CMD, and the step that forwards it seven times. -/
theorem test_witness_StepKeepsTheInvariant :
    Inv ((running 8000 48000 1 8).issue (encode (.sample 1))) ∧
    (nextOf (step ((running 8000 48000 1 8).issue (encode (.sample 1))))).map (fun t => t.bits) =
      some ⟨0x55, 7⟩ :=
  ⟨⟨by decide +kernel, by decide +kernel, by decide +kernel, by decide +kernel, fun _ => by decide +kernel,
    fun _ => by decide +kernel, fun _ _ => by decide +kernel⟩, by decide +kernel⟩

end Sys2Proof.Tests
end

/-! PROOFS. What a command that completes has done, said once for all seven; and the ratio (10_state.md R17). -/

namespace Sys2Proof.Machine

/-- What command `i` has done when it completes from `s` in `t`: a refusal of the spec (60_exceptions.md
R140), which RST never meets, or the effect of the accepted command. -/
inductive ExecEffect : Instr → State → State → Prop where
  | refused {i : Instr} {s : State} (e : ErrCode) (hi : i ≠ .rst) : ExecEffect i s (refuse e s)
  | rst {s : State} : ExecEffect .rst s { State.reset with chan := s.chan }
  | cfg {a : RegAddr} {v : Word} {s : State} {r : ConfigRegs} (hmode : s.status.mode = .idle)
      (hwrite : writeReg a v s.regs = some r) : ExecEffect (.cfg a v) s { s with regs := r }
  | rd {a : RegAddr} {s : State} {v : Word} (hread : readReg a s = some v) :
      ExecEffect (.rd a) s (s.respond v)
  | start {s : State} (hmode : s.status.mode = .idle) (hsrc : s.regs.srcRate ≠ 0)
      (htgt : s.regs.tgtRate ≠ 0) : ExecEffect .start s (beginRun binary64 s)
  | sample {b : Byte} {s t : State} (hmode : s.status.mode = .run) (hn : s.cur.n + 1 < runLimit)
      (hstep : srcStep binary64 b.toInt s = .done t) : ExecEffect (.sample b) s t
  | frame {p : List Byte} {s t : State} (hmode : s.status.mode = .run) (hchannels : s.regs.channels ≠ 0)
      (hlength : frameLengthWrong p s.regs = false) (hn : s.cur.n + 1 < runLimit)
      (hstep : srcStep binary64 (frameSample .floor p s.regs.channels.toNat s.regs.width.toNat)
        (flagWidth s) = .done t) : ExecEffect (.frame p) s t
  | endRun {s : State} (hmode : s.status.mode = .run) : ExecEffect .endRun s (finishRun s)

/-- The width flag leaves every register but W_UNSUP alone, and the channels too (R131). -/
theorem flagWidth_frame (s : State) :
    (flagWidth s).enc = s.enc ∧ (flagWidth s).bits = s.bits ∧ (flagWidth s).cur = s.cur ∧
    (flagWidth s).regs = s.regs ∧ (flagWidth s).status.mode = s.status.mode ∧
    (flagWidth s).status.err = s.status.err ∧ (flagWidth s).chan = s.chan := by
  obtain ⟨-, h⟩ | ⟨-, h⟩ := flagWidth_cases s <;> simp [h]

/-- A command that completes is refused by the spec or has its own effect. -/
theorem exec_next_effect (i : Instr) (s t : State) (h : exec i s = .next t) : ExecEffect i s t := by
  cases i with
  | rst => cases h; exact .rst
  | cfg a v =>
    change execCfg a v s = _ at h
    obtain ⟨e, he⟩ | ⟨r, hmode, hwrite, he⟩ := execCfg_cases a v s <;> cases he.symm.trans h
    · exact .refused e nofun
    · exact .cfg hmode hwrite
  | rd a =>
    change execRd a s = _ at h
    obtain he | ⟨v, hread, he⟩ := execRd_cases a s <;> cases he.symm.trans h
    · exact .refused .addr nofun
    · exact .rd hread
  | start =>
    change startWith referenceConfig s = _ at h
    obtain ⟨e, he⟩ | ⟨hmode, hsrc, htgt, he⟩ := startWith_cases referenceConfig s <;> cases he.symm.trans h
    · exact .refused e nofun
    · exact .start hmode hsrc htgt
  | sample b =>
    change sampleWith referenceConfig b s = _ at h
    obtain he | ⟨hmode, he⟩ := sampleWith_cases referenceConfig b s
    · cases he.symm.trans h
      exact .refused .mode nofun
    · obtain ⟨hn, hstep⟩ := present_next _ _ _ _ (he.symm.trans h)
      exact .sample hmode hn hstep
  | frame p =>
    change frameWith referenceConfig p s = _ at h
    obtain ⟨e, he⟩ | ⟨-, hmode, hchannels, hlength, he⟩ := frameWith_cases referenceConfig p s
    · cases he.symm.trans h
      exact .refused e nofun
    · obtain ⟨hn, hstep⟩ := present_next _ _ _ _ (he.symm.trans h)
      obtain ⟨-, -, hcur, -⟩ := flagWidth_frame s
      exact .frame hmode hchannels hlength (hcur ▸ hn) hstep
  | endRun =>
    change execEnd s = _ at h
    obtain he | ⟨hmode, he⟩ := execEnd_cases s <;> cases he.symm.trans h
    · exact .refused .mode nofun
    · exact .endRun hmode

/-- Settles O50, by the effects of a completed command: only RST and START write the ratio. -/
theorem ratioLatchedByStartAlone : Obligations.RatioLatchedByStartAlone := by
  intro i s t h hne
  cases exec_next_effect i s t h with
  | rst => exact .inl rfl
  | start => exact .inr rfl
  | refused | cfg | rd | endRun => exact absurd rfl hne
  | sample _ _ hstep =>
    obtain ⟨-, hratio, -⟩ := srcStep_frame _ _ _ _ hstep
    exact absurd hratio hne
  | frame _ _ _ _ hstep =>
    obtain ⟨-, hratio, -⟩ := srcStep_frame _ _ _ _ hstep
    obtain ⟨-, -, hcur, -⟩ := flagWidth_frame s
    exact absurd (hratio.trans (congrArg Cursor.ratio hcur)) hne

end Sys2Proof.Machine

/-! PROOFS. Two runs side by side (10_state.md R33): what the commands emit is decided by the data path
alone. The simulation relation is `SameDataPath`; `SameRun` adds that the same bytes have been pushed. -/

namespace Sys2Proof.Machine

/-- `s1` has become `t1` and `s2` has become `t2`, pushing the same bytes and ending with the same data path. -/
structure SameRun (s1 s2 t1 t2 : State) : Prop where
  path : SameDataPath t1 t2
  pushed : ∃ bytes, t1.chan.out = s1.chan.out ++ bytes ∧ t2.chan.out = s2.chan.out ++ bytes

/-- If the outcome `o1` from `s1` is a completion, so is `o2` from `s2`, by the same run. -/
def Follows (s1 s2 : State) (o1 o2 : Host.Outcome State Fault Refusal) : Prop :=
  ∀ t1, o1 = .next t1 → ∃ t2, o2 = .next t2 ∧ SameRun s1 s2 t1 t2

section relations
variable {s1 s2 t1 t2 u1 u2 : State}

theorem SameRun.of_out_eq (hpath : SameDataPath t1 t2) (h1 : t1.chan.out = s1.chan.out)
    (h2 : t2.chan.out = s2.chan.out) : SameRun s1 s2 t1 t2 :=
  ⟨hpath, [], by simp [h1], by simp [h2]⟩

theorem SameRun.trans (hst : SameRun s1 s2 t1 t2) (htu : SameRun t1 t2 u1 u2) : SameRun s1 s2 u1 u2 := by
  obtain ⟨-, bytes, h1, h2⟩ := hst
  obtain ⟨hpath, more, g1, g2⟩ := htu
  exact ⟨hpath, bytes ++ more, by rw [g1, h1, List.append_assoc], by rw [g2, h2, List.append_assoc]⟩

theorem follows_next (h : SameRun s1 s2 t1 t2) : Follows s1 s2 (.next t1) (.next t2) := by
  rintro _ ⟨⟩
  exact ⟨t2, rfl, h⟩

/-- After a common first part, what follows the rest follows the whole. -/
theorem Follows.after {o1 o2 : Host.Outcome State Fault Refusal} (h : Follows t1 t2 o1 o2)
    (hrun : SameRun s1 s2 t1 t2) : Follows s1 s2 o1 o2 := by
  intro u1 hu1
  obtain ⟨u2, hu2, hrest⟩ := h u1 hu1
  exact ⟨u2, hu2, hrun.trans hrest⟩

end relations

/-! The shared operations. -/

section operations
variable {s1 s2 : State}

theorem follows_refused (h : SameDataPath s1 s2) (e : ErrCode) :
    Follows s1 s2 (refused e s1) (refused e s2) := by
  obtain ⟨henc, hbits, hcur, hregs, hmode⟩ := h
  exact follows_next (.of_out_eq ⟨henc, hbits, hcur, hregs, by simpa using hmode⟩ rfl rfl)

theorem sameRun_nextIndex (h : SameDataPath s1 s2) : SameRun s1 s2 s1.nextIndex s2.nextIndex := by
  obtain ⟨henc, hbits, hcur, hregs, hmode⟩ := h
  exact .of_out_eq ⟨henc, hbits, by simp [hcur], hregs, hmode⟩ rfl rfl

/-- Forward reads the encoder and the bit buffer alone (44_commands.md R128). -/
theorem sameRun_forward (x : Int) (h : SameDataPath s1 s2) :
    SameRun s1 s2 (forward x s1) (forward x s2) := by
  obtain ⟨henc, hbits, hcur, hregs, hmode⟩ := h
  exact ⟨⟨by simp [henc], by simp [henc, hbits], hcur, hregs, hmode⟩, _, forward_out x s1,
    by rw [forward_out, henc, hbits]⟩

theorem sameRun_srcTurn (c : CursorNum) (x : Int) (h : SameDataPath s1 s2) :
    SameRun s1 s2 (srcTurn c x s1) (srcTurn c x s2) := by
  obtain ⟨⟨henc, hbits, -, hregs, hmode⟩, hpushed⟩ := sameRun_forward x h
  obtain ⟨-, -, hcur, -⟩ := h
  exact ⟨⟨henc, hbits, by simp [srcTurn, hcur], hregs, hmode⟩, hpushed⟩

/-- The loop of SRC.STEP takes the same turns from states that agree on the data path (41_resampler.md R93). -/
theorem srcLoop_sameRun (c : CursorNum) (x : Int) (fuel : Nat) {s1 s2 t1 : State} (h : SameDataPath s1 s2)
    (hdone : srcLoop c x fuel s1 = .done t1) :
    ∃ t2, srcLoop c x fuel s2 = .done t2 ∧ SameRun s1 s2 t1 t2 := by
  induction fuel generalizing s1 s2 with
  | zero => cases hdone
  | succ fuel ih =>
    have hturn := sameRun_srcTurn c x h
    have ⟨_, _, hcur, _⟩ := h
    rw [srcLoop] at hdone ⊢
    rw [← hcur]
    split at hdone
    case isFalse hoff =>
      cases hdone
      exact ⟨s2, if_neg hoff, .of_out_eq h rfl rfl⟩
    case isTrue hon =>
      split at hdone
      case isTrue => cases hdone
      case isFalse hmoves =>
        obtain ⟨t2, ht2, hrest⟩ := ih hturn.path hdone
        exact ⟨t2, by rw [if_pos hon, if_neg hmoves, ht2], hturn.trans hrest⟩

theorem srcStep_sameRun (c : CursorNum) (x : Int) {t1 : State} (h : SameDataPath s1 s2)
    (hdone : srcStep c x s1 = .done t1) :
    ∃ t2, srcStep c x s2 = .done t2 ∧ SameRun s1 s2 t1 t2 := by
  have ⟨_, _, _, hregs, _⟩ := h
  unfold srcStep at hdone ⊢
  rw [← hregs]
  split at hdone
  case isTrue heq =>
    cases hdone
    have hforward := sameRun_forward x h
    exact ⟨_, if_pos heq, hforward.trans (sameRun_nextIndex hforward.path)⟩
  case isFalse hne =>
    split at hdone
    case h_1 u1 hu1 =>
      cases hdone
      obtain ⟨u2, hu2, hloop⟩ := srcLoop_sameRun c x srcFuel h hu1
      exact ⟨u2.nextIndex, by rw [if_neg hne, hu2], hloop.trans (sameRun_nextIndex hloop.path)⟩
    case h_2 => cases hdone

theorem present_follows (c : CursorNum) (x : Int) (h : SameDataPath s1 s2) :
    Follows s1 s2 (present c x s1) (present c x s2) := by
  intro t1 ht1
  have ⟨_, _, hcur, _⟩ := h
  obtain ⟨hn, hdone⟩ := present_next c x s1 t1 ht1
  obtain ⟨t2, ht2, hrun⟩ := srcStep_sameRun c x h hdone
  exact ⟨t2, by rw [present, ← hcur, if_neg (by omega), ht2], hrun⟩

theorem sameRun_flagWidth (h : SameDataPath s1 s2) : SameRun s1 s2 (flagWidth s1) (flagWidth s2) := by
  obtain ⟨henc, hbits, hcur, hregs, hmode⟩ := h
  obtain ⟨henc1, hbits1, hcur1, hregs1, hmode1, -, hchan1⟩ := flagWidth_frame s1
  obtain ⟨henc2, hbits2, hcur2, hregs2, hmode2, -, hchan2⟩ := flagWidth_frame s2
  exact .of_out_eq
    ⟨by rw [henc1, henc2, henc], by rw [hbits1, hbits2, hbits], by rw [hcur1, hcur2, hcur],
      by rw [hregs1, hregs2, hregs], by rw [hmode1, hmode2, hmode]⟩
    (by rw [hchan1]) (by rw [hchan2])

end operations

/-! The commands. -/

section commands
variable {s1 s2 : State}

theorem execRst_follows : Follows s1 s2 (execRst s1) (execRst s2) :=
  follows_next (.of_out_eq ⟨rfl, rfl, rfl, rfl, rfl⟩ rfl rfl)

theorem execCfg_follows (a : RegAddr) (v : Word) (h : SameDataPath s1 s2) :
    Follows s1 s2 (execCfg a v s1) (execCfg a v s2) := by
  have ⟨henc, hbits, hcur, hregs, hmode⟩ := h
  unfold execCfg
  rw [← hmode, ← hregs]
  split
  · exact follows_refused h .mode
  · split
    · exact follows_refused h .addr
    · split
      · exact follows_refused h .cfg
      · exact follows_next (.of_out_eq ⟨henc, hbits, hcur, rfl, hmode⟩ rfl rfl)

/-- RD of STATUS may deliver different words in the two runs, but both are delivered. -/
theorem execRd_follows (a : RegAddr) (h : SameDataPath s1 s2) :
    Follows s1 s2 (execRd a s1) (execRd a s2) := by
  have hread : (readReg a s1).isSome = (readReg a s2).isSome := by
    rw [readReg_isSome_iff, readReg_isSome_iff]
  unfold execRd
  cases h1 : readReg a s1 <;> cases h2 : readReg a s2 <;> simp only [h1, h2] at hread ⊢
  case none.none => exact follows_refused h .addr
  case none.some => cases hread
  case some.none => cases hread
  case some.some => exact follows_next (.of_out_eq h rfl rfl)

/-- A run begins from the configuration alone (44_commands.md R127). -/
theorem beginRun_sameDataPath (c : CursorNum) (hregs : s1.regs = s2.regs) :
    SameDataPath (beginRun c s1) (beginRun c s2) :=
  ⟨rfl, rfl, by simp [beginRun, hregs], hregs, rfl⟩

theorem startWith_follows (cfg : Config) (h : SameDataPath s1 s2) :
    Follows s1 s2 (startWith cfg s1) (startWith cfg s2) := by
  have ⟨_, _, _, hregs, hmode⟩ := h
  unfold startWith
  rw [← hmode, ← hregs]
  split
  · exact follows_refused h .mode
  · split
    · exact follows_refused h .cfg
    · exact follows_next (.of_out_eq (beginRun_sameDataPath cfg.cursor hregs) rfl rfl)

theorem sampleWith_follows (cfg : Config) (b : Byte) (h : SameDataPath s1 s2) :
    Follows s1 s2 (sampleWith cfg b s1) (sampleWith cfg b s2) := by
  have ⟨_, _, _, _, hmode⟩ := h
  unfold sampleWith
  rw [← hmode]
  split
  · exact follows_refused h .mode
  · exact present_follows cfg.cursor _ h

theorem frameWith_follows (cfg : Config) (p : List Byte) (h : SameDataPath s1 s2) :
    Follows s1 s2 (frameWith cfg p s1) (frameWith cfg p s2) := by
  have ⟨_, _, _, hregs, hmode⟩ := h
  have hflag := sameRun_flagWidth h
  unfold frameWith
  rw [← hmode, ← hregs]
  split
  · exact follows_refused h .op
  · split
    · exact follows_refused h .mode
    · split
      · exact follows_refused h .cfg
      · split
        · exact follows_refused h .len
        · exact (present_follows cfg.cursor _ hflag.path).after hflag

theorem sameRun_finishRun (h : SameDataPath s1 s2) : SameRun s1 s2 (finishRun s1) (finishRun s2) := by
  obtain ⟨henc, hbits, hcur, hregs, -⟩ := h
  exact ⟨⟨henc, by simp [finishRun, hbits], hcur, hregs, rfl⟩, (bpFlush s1.bits).2, rfl,
    by simp [finishRun, hbits]⟩

theorem execEnd_follows (h : SameDataPath s1 s2) : Follows s1 s2 (execEnd s1) (execEnd s2) := by
  have ⟨_, _, _, _, hmode⟩ := h
  unfold execEnd
  rw [← hmode]
  split
  · exact follows_refused h .mode
  · exact follows_next (sameRun_finishRun h)

/-- One step of the simulation, command by command. -/
theorem exec_follows (i : Instr) (h : SameDataPath s1 s2) : Follows s1 s2 (exec i s1) (exec i s2) := by
  cases i with
  | rst => exact execRst_follows
  | cfg a v => exact execCfg_follows a v h
  | rd a => exact execRd_follows a h
  | start => exact startWith_follows referenceConfig h
  | sample b => exact sampleWith_follows referenceConfig b h
  | frame p => exact frameWith_follows referenceConfig p h
  | endRun => exact execEnd_follows h

end commands

/-- The simulation along a list of commands. -/
theorem execAll_follows (is : List Instr) {s1 s2 : State} (h : SameDataPath s1 s2) :
    Follows s1 s2 (execAll is s1) (execAll is s2) := by
  induction is generalizing s1 s2 with
  | nil => exact follows_next (.of_out_eq h rfl rfl)
  | cons i is ih =>
    intro t1 ht1
    rw [execAll] at ht1 ⊢
    split at ht1
    case h_1 u1 hu1 =>
      obtain ⟨u2, hu2, hfirst⟩ := exec_follows i h u1 hu1
      rw [hu2]
      exact (ih hfirst.path).after hfirst t1 ht1
    case h_2 => cases ht1
    case h_3 => cases ht1

/-- START in IDLE under non-zero rates is accepted (R127). -/
theorem exec_start_accepted (s : State) (hmode : s.status.mode = .idle) (hsrc : s.regs.srcRate ≠ 0)
    (htgt : s.regs.tgtRate ≠ 0) : exec .start s = .next (beginRun binary64 s) := by
  have hrates : ¬ (s.regs.srcRate = 0 ∨ s.regs.tgtRate = 0) := not_or.mpr ⟨hsrc, htgt⟩
  change startWith referenceConfig s = _
  rw [startWith, if_neg (by simp [hmode]), if_neg hrates, referenceConfig_cursor]

/-- Settles O53: START builds the data path from the configuration, and the commands after it are simulated
step by step. -/
theorem outputIndependentOfHistory : Obligations.OutputIndependentOfHistory := by
  refine ⟨fun s1 s2 t1 hidle1 hidle2 hregs hsrc htgt hstart => ?_, fun is s1 s2 t1 h ht1 => ?_⟩
  · rw [exec_start_accepted s1 hidle1 hsrc htgt] at hstart
    cases hstart
    exact ⟨_, exec_start_accepted s2 hidle2 (hregs ▸ hsrc) (hregs ▸ htgt), beginRun_sameDataPath _ hregs⟩
  · obtain ⟨t2, ht2, hpath, bytes, hout1, hout2⟩ := execAll_follows is h t1 ht1
    exact ⟨t2, bytes, ht2, hpath, hout1, hout2⟩

end Sys2Proof.Machine

/-! PROOFS. The state after hardware reset (10_state.md R32). -/

namespace Sys2Proof.Machine

/-- +0.0, where the cursor and the ratio start, is in the domain of R90. -/
theorem f64Real_posZero : f64Real posZero = true := by decide

/-- Settles O54: the registers of the data path are zero, and the mode is IDLE, so nothing is asked of the
rates. -/
theorem invariantHoldsAtReset : Obligations.InvariantHoldsAtReset where
  padding := by decide
  lengthBound := by decide
  cursorReal := f64Real_posZero
  ratioReal := f64Real_posZero
  rates := nofun
  ratio := nofun
  ahead := nofun

end Sys2Proof.Machine

/-! PROOFS. The channels (20_memory.md R41 to R43): what a completed command may append to OUT and RESP. -/

namespace Sys2Proof.Machine

/-- The commands that can push bytes on OUT (20_memory.md R42). -/
def PushesBytes (i : Instr) : Prop := (∃ b, i = .sample b) ∨ (∃ p, i = .frame p) ∨ i = .endRun

/-- The channels `d` are reached from `c` by command `i`: CMD is untouched, and OUT and RESP are extended,
each only by the commands that own it. -/
structure ChannelsGrow (i : Instr) (c d : Channels) : Prop where
  cmd : d.cmd = c.cmd
  out : ∃ bytes, d.out = c.out ++ bytes ∧ (bytes ≠ [] → PushesBytes i)
  resp : ∃ words, d.resp = c.resp ++ words ∧ (words ≠ [] → words.length = 1 ∧ ∃ a, i = .rd a)

section growth
variable {i : Instr} {c d : Channels}

theorem ChannelsGrow.refl (i : Instr) (c : Channels) : ChannelsGrow i c c :=
  ⟨rfl, ⟨[], by simp, nofun⟩, ⟨[], by simp, nofun⟩⟩

theorem ChannelsGrow.of_out (hi : PushesBytes i) (hcmd : d.cmd = c.cmd) (hresp : d.resp = c.resp)
    (hout : ∃ bytes, d.out = c.out ++ bytes) : ChannelsGrow i c d := by
  obtain ⟨bytes, hout⟩ := hout
  exact ⟨hcmd, ⟨bytes, hout, fun _ => hi⟩, ⟨[], by simp [hresp], nofun⟩⟩

theorem ChannelsGrow.of_respond (a : RegAddr) (s : State) (v : Word) :
    ChannelsGrow (.rd a) s.chan (s.respond v).chan :=
  ⟨rfl, ⟨[], by simp, nofun⟩, ⟨[v], rfl, fun _ => ⟨rfl, a, rfl⟩⟩⟩

/-- SRC.STEP reaches the channels through Forward alone, which pushes bytes (44_commands.md R128). -/
theorem ChannelsGrow.of_srcStep (hi : PushesBytes i) {n : CursorNum} {x : Int} {s t : State}
    (hstep : srcStep n x s = .done t) : ChannelsGrow i s.chan t.chan := by
  obtain ⟨-, -, -, -, hcmd, hresp, hout⟩ := srcStep_frame n x s t hstep
  exact .of_out hi hcmd hresp hout

end growth

/-- A completed command leaves the channels alone, delivers one word, or pushes bytes as its kind allows. -/
theorem ExecEffect.channelsGrow {i : Instr} {s t : State} (h : ExecEffect i s t) :
    ChannelsGrow i s.chan t.chan := by
  cases h with
  | refused | rst | cfg | start => exact .refl _ s.chan
  | rd => exact .of_respond _ s _
  | sample _ _ hstep => exact .of_srcStep (.inl ⟨_, rfl⟩) hstep
  | frame _ _ _ _ hstep =>
    obtain ⟨-, -, -, -, -, -, hchan⟩ := flagWidth_frame s
    exact hchan ▸ .of_srcStep (.inr (.inl ⟨_, rfl⟩)) hstep
  | endRun => exact .of_out (.inr (.inr rfl)) rfl rfl ⟨_, rfl⟩

/-- Settles O51, by the effects of a completed command: each lets the channels grow. -/
theorem channelsOnlyGrow : Obligations.ChannelsOnlyGrow := by
  intro i s t h
  obtain ⟨hcmd, hout, hresp⟩ := (exec_next_effect i s t h).channelsGrow
  exact ⟨hcmd, hout, hresp⟩

end Sys2Proof.Machine

/-! PROOFS. The header as a number and as four fields (30_encoding.md R60): what each field reads, and what it
reads of a header made from its fields. -/

namespace Sys2Proof

section headerFields
variable (h : Header) (d : Word) (a : RegAddr) (op : BitVec 3)

/-- Two bit fields side by side, as a number: the upper one stands above the `m` bits of the lower. -/
theorem toNat_append_eq_add {n m : Nat} (x : BitVec n) (y : BitVec m) :
    (x ++ y).toNat = x.toNat * 2 ^ m + y.toNat := by
  rw [BitVec.toNat_append, ← Nat.shiftLeft_add_eq_or_of_lt y.isLt, Nat.shiftLeft_eq]

theorem Header.op_toNat : h.op.toNat = h.toNat % 8 := by simp [Header.op]

theorem Header.rsv_eq : h.rsv = decide (h.toNat / 8 % 2 = 1) := by
  rw [Header.rsv, ← BitVec.testBit_toNat, Nat.testBit_eq_decide_div_mod_eq]

theorem Header.addr_eq : h.addr = BitVec.ofNat 4 (h.toNat / 16) := by
  apply BitVec.eq_of_toNat_eq
  simp [Header.addr, Nat.shiftRight_eq_div_pow]

theorem Header.data_eq : h.data = BitVec.ofNat 32 (h.toNat / 256) := by
  apply BitVec.eq_of_toNat_eq
  simp [Header.data, Nat.shiftRight_eq_div_pow]

theorem Header.sampleByte_eq : h.sampleByte = BitVec.ofNat 8 (h.toNat / 256) := by
  apply BitVec.eq_of_toNat_eq
  simp [Header.sampleByte, Nat.shiftRight_eq_div_pow]

/-- The sample byte is the low byte of `data` (R63). -/
theorem Header.sampleByte_eq_data : h.sampleByte = h.data.setWidth 8 := by
  rw [Header.sampleByte_eq, Header.data_eq]
  apply BitVec.eq_of_toNat_eq
  simp

theorem Header.toNat_ofFields : (Header.ofFields d a op).toNat = d.toNat * 256 + a.toNat * 16 + op.toNat := by
  simp only [Header.ofFields, toNat_append_eq_add, BitVec.toNat_ofNat]
  omega

@[simp] theorem Header.op_ofFields : (Header.ofFields d a op).op = op := by
  apply BitVec.eq_of_toNat_eq
  have hlow := Laws.ofFields_low d a op
  rw [Header.op_toNat]
  omega

@[simp] theorem Header.rsv_ofFields : (Header.ofFields d a op).rsv = false := by
  have hlow := Laws.ofFields_low d a op
  rw [Header.rsv_eq, decide_eq_false_iff_not]
  omega

@[simp] theorem Header.addr_ofFields : (Header.ofFields d a op).addr = a := by
  apply BitVec.eq_of_toNat_eq
  rw [Header.addr_eq, Header.toNat_ofFields, BitVec.toNat_ofNat]
  omega

@[simp] theorem Header.data_ofFields : (Header.ofFields d a op).data = d := by
  apply BitVec.eq_of_toNat_eq
  rw [Header.data_eq, Header.toNat_ofFields, BitVec.toNat_ofNat]
  omega

@[simp] theorem Header.sampleByte_ofFields : (Header.ofFields d a op).sampleByte = d.setWidth 8 := by
  rw [Header.sampleByte_eq_data, Header.data_ofFields]

end headerFields

/-- A header with `rsv` 0 is made from its other three fields (R60). -/
theorem Header.ofFields_of_rsv_eq_false (h : Header) (hrsv : h.rsv = false) :
    Header.ofFields h.data h.addr h.op = h := by
  apply BitVec.eq_of_toNat_eq
  rw [Header.rsv_eq, decide_eq_false_iff_not] at hrsv
  rw [Header.toNat_ofFields, Header.op_toNat, Header.addr_eq, Header.data_eq, BitVec.toNat_ofNat,
    BitVec.toNat_ofNat]
  omega

/-- Bits 39:16 are 0 exactly when `data` holds nothing above its low byte. -/
theorem Header.extractLsb'_sixteen_eq_zero_iff (h : Header) :
    h.extractLsb' 16 24 = 0 ↔ h.data = h.sampleByte.setWidth 32 := by
  rw [Header.data_eq, Header.sampleByte_eq, ← BitVec.toNat_inj, ← BitVec.toNat_inj, BitVec.extractLsb'_toNat,
    BitVec.toNat_setWidth, Nat.shiftRight_eq_div_pow]
  simp only [BitVec.toNat_ofNat, BitVec.ofNat_eq_ofNat]
  omega

end Sys2Proof

/-! PROOFS. The decoder (30_encoding.md R61, R69, R71): one equation for each verdict. -/

namespace Sys2Proof

section verdicts
variable {c : Command}

theorem decode_eq_rsvBit (hrsv : c.header.rsv = true) : decode c = .reserved .rsvBit := by
  simp [decode, hrsv]

variable (hrsv : c.header.rsv = false)
include hrsv

theorem decode_eq_rst (hop : c.header.op.toNat = 0) : decode c = .ok .rst := by
  simp [decode, hrsv, hop]

theorem decode_eq_cfg (hop : c.header.op.toNat = 1) : decode c = .ok (.cfg c.header.addr c.header.data) := by
  simp [decode, hrsv, hop]

theorem decode_eq_rd (hop : c.header.op.toNat = 2) : decode c = .ok (.rd c.header.addr) := by
  simp [decode, hrsv, hop]

theorem decode_eq_start (hop : c.header.op.toNat = 3) : decode c = .ok .start := by
  simp [decode, hrsv, hop]

theorem decode_eq_sample (hop : c.header.op.toNat = 4) : decode c = .ok (.sample c.header.sampleByte) := by
  simp [decode, hrsv, hop]

theorem decode_eq_frame (hop : c.header.op.toNat = 5) : decode c = .ok (.frame c.payload) := by
  simp [decode, hrsv, hop]

theorem decode_eq_endRun (hop : c.header.op.toNat = 6) : decode c = .ok .endRun := by
  simp [decode, hrsv, hop]

theorem decode_eq_opSeven (hop : c.header.op.toNat = 7) : decode c = .reserved .opSeven := by
  simp [decode, hrsv, hop]

end verdicts

/-- Settles O3, by the decoder's equations: `rsv` is asked first, then `op`. -/
theorem decodeVerdictFromHeaderBits : Obligations.DecodeVerdictFromHeaderBits := by
  intro c
  split
  case isTrue hbit => exact decode_eq_rsvBit (by rw [Header.rsv_eq, decide_eq_true hbit])
  case isFalse hbit =>
    have hrsv : c.header.rsv = false := by rw [Header.rsv_eq, decide_eq_false hbit]
    rw [← Header.addr_eq, ← Header.data_eq, ← Header.sampleByte_eq, ← Header.op_toNat]
    have hlt := c.header.op.isLt
    match hop : c.header.op.toNat with
    | 0 => exact decode_eq_rst hrsv hop
    | 1 => exact decode_eq_cfg hrsv hop
    | 2 => exact decode_eq_rd hrsv hop
    | 3 => exact decode_eq_start hrsv hop
    | 4 => exact decode_eq_sample hrsv hop
    | 5 => exact decode_eq_frame hrsv hop
    | 6 => exact decode_eq_endRun hrsv hop
    | n + 7 => exact decode_eq_opSeven hrsv (by omega)

/-- A header with `rsv` 1 or `op` 7 has no command, whatever its other bits are (R69). -/
theorem exists_decode_eq_reserved (c : Command) (h : c.header.rsv = true ∨ c.header.op.toNat = 7) :
    ∃ why, decode c = .reserved why := by
  cases hrsv : c.header.rsv with
  | true => exact ⟨_, decode_eq_rsvBit hrsv⟩
  | false => exact ⟨_, decode_eq_opSeven hrsv (h.resolve_left (by simp [hrsv]))⟩

/-- Settles O4: headers of V5, P1 and P4, each decoded as it stands. -/
theorem opcodeWordsDecode : Obligations.OpcodeWordsDecode := by
  unfold Obligations.OpcodeWordsDecode
  decide

end Sys2Proof

/-! PROOFS. The encoder (30_encoding.md R64, R73): the decoder inverts it, and its commands are the canonical
ones. -/

namespace Sys2Proof

/-- What a canonical command is, in the fields of its header (R64, R41). -/
structure CanonicalFields (c : Command) : Prop where
  rsv : c.header.rsv = false
  op : c.header.op.toNat ≠ 7
  addr : c.header.op.toNat ≠ 1 → c.header.op.toNat ≠ 2 → c.header.addr = 0
  data : c.header.op.toNat ≠ 1 → c.header.data = c.header.sampleByte.setWidth 32
  sampleByte : c.header.op.toNat ≠ 1 → c.header.op.toNat ≠ 4 → c.header.sampleByte = 0
  payload : c.header.op.toNat ≠ 5 → c.payload = []

/-- Only CFG and SAMPLE use `data` (R64). -/
theorem CanonicalFields.data_eq_zero {c : Command} (hc : CanonicalFields c) (hcfg : c.header.op.toNat ≠ 1)
    (hsample : c.header.op.toNat ≠ 4) : c.header.data = 0 := by
  rw [hc.data hcfg, hc.sampleByte hcfg hsample]
  rfl

theorem canonical_iff (c : Command) : c.canonical = true ↔ CanonicalFields c := by
  simp only [Command.canonical, Bool.and_eq_true, Bool.or_eq_true, Bool.not_eq_true', decide_eq_true_eq,
    beq_iff_eq, List.isEmpty_iff, Header.extractLsb'_sixteen_eq_zero_iff, or_assoc]
  simp only [or_iff_not_imp_left]
  constructor
  · rintro ⟨⟨⟨⟨⟨hrsv, hop⟩, haddr⟩, hdata⟩, hbyte⟩, hpayload⟩
    exact ⟨hrsv, hop, haddr, hdata, hbyte, hpayload⟩
  · rintro ⟨hrsv, hop, haddr, hdata, hbyte, hpayload⟩
    exact ⟨⟨⟨⟨⟨hrsv, hop⟩, haddr⟩, hdata⟩, hbyte⟩, hpayload⟩

theorem decode_encode (i : Instr) : decode (encode i) = .ok i := by
  cases i with
  | rst => exact decode_eq_rst (by simp [encode]) (by simp [encode])
  | cfg a v => rw [decode_eq_cfg] <;> simp [encode]
  | rd a => rw [decode_eq_rd] <;> simp [encode]
  | start => exact decode_eq_start (by simp [encode]) (by simp [encode])
  | sample b => rw [decode_eq_sample] <;> simp [encode]
  | frame p => rw [decode_eq_frame] <;> simp [encode]
  | endRun => exact decode_eq_endRun (by simp [encode]) (by simp [encode])

theorem canonicalFields_encode (i : Instr) : CanonicalFields (encode i) where
  rsv := by cases i <;> exact Header.rsv_ofFields _ _ _
  op := by cases i <;> simp [encode]
  addr := by cases i <;> simp [encode]
  data := by cases i <;> simp [encode]
  sampleByte := by cases i <;> simp [encode]
  payload := by cases i <;> simp [encode]

/-- Settles O1: the decoder's equation for the operation code the encoder wrote, field by field. -/
theorem decodeEncodeRoundTrip : Obligations.DecodeEncodeRoundTrip :=
  fun i => ⟨decode_encode i, (canonical_iff _).2 (canonicalFields_encode i)⟩

/-- A command with `rsv` 0 is given by its other three fields and its payload. -/
theorem Command.eq_of_fields {c : Command} (hrsv : c.header.rsv = false) {d : Word} {a : RegAddr}
    {op : BitVec 3} {p : List Byte} (hop : c.header.op.toNat = op.toNat) (ha : c.header.addr = a)
    (hd : c.header.data = d) (hp : c.payload = p) : Command.mk (Header.ofFields d a op) p = c := by
  rw [← ha, ← hd, ← hp, ← BitVec.eq_of_toNat_eq hop, Header.ofFields_of_rsv_eq_false c.header hrsv]

/-- RST, START and END use no field but `op`, so `op` alone gives their canonical command (R64). -/
theorem CanonicalFields.eq_of_no_operand {c : Command} (hc : CanonicalFields c) {op : BitVec 3}
    (hop : c.header.op.toNat = op.toNat) (hno : op.toNat ∉ [1, 2, 4, 5]) :
    Command.mk (Header.ofFields 0 0 op) [] = c := by
  simp only [← hop, List.mem_cons, List.not_mem_nil, or_false, not_or] at hno
  obtain ⟨hcfg, hrd, hsample, hframe⟩ := hno
  exact Command.eq_of_fields hc.rsv hop (hc.addr hcfg hrd) (hc.data_eq_zero hcfg hsample) (hc.payload hframe)

/-- Every canonical command is one an assembler writes: the fields its instruction ignores are 0. -/
theorem CanonicalFields.exists_encode_eq {c : Command} (hc : CanonicalFields c) : ∃ i, encode i = c := by
  have hlt := c.header.op.isLt
  have hseven := hc.op
  match hop : c.header.op.toNat with
  | 0 => exact ⟨.rst, hc.eq_of_no_operand hop (by decide)⟩
  | 1 => exact ⟨.cfg c.header.addr c.header.data, Command.eq_of_fields hc.rsv hop rfl rfl
      (hc.payload (by omega))⟩
  | 2 => exact ⟨.rd c.header.addr, Command.eq_of_fields hc.rsv hop rfl
      (hc.data_eq_zero (by omega) (by omega)) (hc.payload (by omega))⟩
  | 3 => exact ⟨.start, hc.eq_of_no_operand hop (by decide)⟩
  | 4 => exact ⟨.sample c.header.sampleByte, Command.eq_of_fields hc.rsv hop
      (hc.addr (by omega) (by omega)) (hc.data (by omega)) (hc.payload (by omega))⟩
  | 5 => exact ⟨.frame c.payload, Command.eq_of_fields hc.rsv hop (hc.addr (by omega) (by omega))
      (hc.data_eq_zero (by omega) (by omega)) rfl⟩
  | 6 => exact ⟨.endRun, hc.eq_of_no_operand hop (by decide)⟩
  | n + 7 => omega

/-- Settles O2: a canonical command is the encoding of some instruction, which is the one it decodes to. -/
theorem canonicalCommandReencodes : Obligations.CanonicalCommandReencodes := by
  intro c i hcanonical hdecode
  obtain ⟨j, rfl⟩ := ((canonical_iff c).1 hcanonical).exists_encode_eq
  cases (decode_encode j).symm.trans hdecode
  rfl

/-- Settles O5, by the number of a header made from its fields. -/
theorem assemblerHeaderNumbers : Obligations.AssemblerHeaderNumbers := by
  refine ⟨fun a v => Header.toNat_ofFields v a 1, fun a => ?_, fun x _ => ?_, fun p => ⟨rfl, rfl⟩, rfl, rfl, rfl⟩
  · simp [encode, Header.toNat_ofFields]
  · have hbyte : ((BitVec.ofInt 8 x).setWidth 32).toNat = (x % 256).toNat := by
      simp [BitVec.toNat_ofInt]
      omega
    simp [encode, Header.toNat_ofFields, hbyte]

end Sys2Proof

/-! PROOFS. The step from a command on CMD (44_commands.md R120). -/

namespace Sys2Proof.Machine

/-- A step with a command on CMD takes it off and executes it (R120). -/
theorem step_of_cmd_eq_cons {s : State} {c : Command} {rest : List Command} (hcmd : s.chan.cmd = c :: rest) :
    step s = execCommand c (s.setCommands rest) := by
  simp [step, State.fetch, hcmd]

theorem execCommand_of_decode_eq_reserved {c : Command} {why : Reserved} (h : decode c = .reserved why)
    (s : State) : execCommand c s = .next (refuse .op s) := by
  simp [execCommand, h, refused]

/-- Settles O8: the decoder has no command for such a header, and its refusal is ERR_OP. -/
theorem reservedHeaderRecordsErrOp : Obligations.ReservedHeaderRecordsErrOp := by
  intro s c rest hcmd hbits
  have hreserved : c.header.rsv = true ∨ c.header.op.toNat = 7 := by
    rwa [Header.rsv_eq, Header.op_toNat, decide_eq_true_iff]
  obtain ⟨why, hdecode⟩ := exists_decode_eq_reserved c hreserved
  rw [step_of_cmd_eq_cons hcmd, execCommand_of_decode_eq_reserved hdecode]

end Sys2Proof.Machine

/-! PROOFS. The channel samples of a FRAME payload (30_encoding.md R65 to R67, R74; 40_sample_source.md R80,
R81, R85). -/

namespace Sys2Proof.Machine

section channelSamples
variable (mode : DivMode) (payload : List Byte) (c : Nat)

theorem channelSamples_eight : channelSamples mode payload c 8 = payload.map conv8 := rfl

theorem channelSamples_sixteen : channelSamples mode payload c 16 = conv16Pairs mode payload := rfl

theorem channelSamples_unsupported {w : Nat} (h8 : w ≠ 8) (h16 : w ≠ 16) :
    channelSamples mode payload c w = List.replicate c 0 := by
  simp [channelSamples, h8, h16, convX]

end channelSamples

/-- Channel `c` of a WIDTH 16 payload is the reduced pair at `2c` and `2c + 1` (R66). -/
theorem conv16Pairs_getElem? (mode : DivMode) {payload : List Byte} {c : Nat} {lo hi : Byte}
    (hlo : payload[2 * c]? = some lo) (hhi : payload[2 * c + 1]? = some hi) :
    (conv16Pairs mode payload)[c]? = some (conv16 mode lo hi) := by
  induction payload using conv16Pairs.induct generalizing c with
  | case1 b0 b1 rest ih =>
    cases c with
    | zero => simp_all [conv16Pairs]
    | succ c =>
      rw [Nat.mul_succ] at hlo hhi
      exact ih hlo hhi
  | case2 payload hshort =>
    match payload with
    | [] => simp at hlo
    | [_] => simp at hhi
    | b0 :: b1 :: rest => exact (hshort b0 b1 rest rfl).elim

/-- Settles O24: WIDTH 8 maps each byte, WIDTH 16 reduces consecutive pairs, another width reads nothing. -/
theorem channelSamplesByIndex : Obligations.ChannelSamplesByIndex := by
  intro mode payload channels width
  refine ⟨?_, ?_, fun h8 h16 => channelSamples_unsupported mode payload channels h8 h16⟩
  · rintro rfl hlength c hc
    have hlt : c < payload.length := by omega
    refine ⟨payload[c], List.getElem?_eq_getElem hlt, ?_⟩
    rw [channelSamples_eight, List.getElem?_map, List.getElem?_eq_getElem hlt]
    rfl
  · rintro rfl hlength c hc
    have hlo := List.getElem?_eq_getElem (show 2 * c < payload.length by omega)
    have hhi := List.getElem?_eq_getElem (show 2 * c + 1 < payload.length by omega)
    exact ⟨_, _, hlo, hhi, conv16Pairs_getElem? mode hlo hhi⟩

/-- A FRAME8 value comes back from its byte, less the offset (R80). -/
theorem conv8_ofNat {u : Nat} (hu : u ≤ 255) : conv8 (BitVec.ofNat 8 u) = (u : Int) - 128 := by
  simp [conv8, pcm8Offset]
  omega

/-- The two bytes of a FRAME16 value, low one first, are read as that value (R74, 20_memory.md R44). -/
theorem exists_bytesOfSample16 {v : Int} (hv : -32768 ≤ v ∧ v ≤ 32767) :
    ∃ lo hi, bytesOfSample16 v = [lo, hi] ∧ pcm16 lo hi = v := by
  refine ⟨_, _, rfl, ?_⟩
  have hpair := BitVec.extractLsb'_append_extractLsb'_eq_extractLsb' (x := BitVec.ofInt 16 v)
    (show 8 = 0 + 8 from rfl) (len₂ := 8)
  rw [pcm16, hpair, BitVec.extractLsb'_eq_self]
  exact BitVec.toInt_ofInt_eq_self (by decide) (by omega) (by omega)

theorem length_flatMap_bytesOfSample16 (vs : List Int) : (vs.flatMap bytesOfSample16).length = 2 * vs.length := by
  simp [List.length_flatMap, bytesOfSample16, Nat.mul_comm]

theorem conv16Pairs_flatMap_bytesOfSample16 {vs : List Int} (hvs : ∀ v ∈ vs, -32768 ≤ v ∧ v ≤ 32767) :
    conv16Pairs .floor (vs.flatMap bytesOfSample16) = vs.map fun v => Int.fdiv v 256 := by
  induction vs with
  | nil => rfl
  | cons v vs ih =>
    obtain ⟨hv, hrest⟩ := List.forall_mem_cons.1 hvs
    obtain ⟨lo, hi, hbytes, hvalue⟩ := exists_bytesOfSample16 hv
    have hreduce : conv16 .floor lo hi = Int.fdiv v 256 := by rw [conv16, hvalue]; rfl
    rw [List.flatMap_cons, hbytes, List.map_cons, ← ih hrest, ← hreduce]
    rfl

/-- Settles O6, by what each channel value becomes once it is laid out as bytes and read back. -/
theorem framePseudoInstructionsPresentTheirValues :
    Obligations.FramePseudoInstructionsPresentTheirValues := by
  refine ⟨fun us hwf => ⟨_, rfl, by simp, fun mode => ?_⟩,
    fun vs hwf => ⟨_, rfl, length_flatMap_bytesOfSample16 vs, ?_⟩⟩
  · have hrange : ∀ u ∈ us, u ≤ 255 := by simpa [Pseudo.wellFormed] using hwf
    rw [channelSamples_eight, List.map_map]
    exact List.map_congr_left fun u hu => conv8_ofNat (hrange u hu)
  · have hrange : ∀ v ∈ vs, -32768 ≤ v ∧ v ≤ 32767 := by simpa [Pseudo.wellFormed] using hwf
    rw [channelSamples_sixteen, conv16Pairs_flatMap_bytesOfSample16 hrange]

end Sys2Proof.Machine

/-! PROOFS. The integer division of SF (00_scope.md R7, 40_sample_source.md R82), for either DIV_MODE: it is
monotone and exact on multiples, so a quotient stays between bounds that the dividend meets as multiples. -/

namespace Sys2Proof.Machine

section division
variable (mode : DivMode)

/-- Toward negative infinity is the Euclidean quotient, since SF never divides by a negative number. -/
theorem idiv_floor_eq_ediv (a : Int) {b : Int} (hb : 0 ≤ b) : idiv .floor a b = a / b :=
  Int.fdiv_eq_ediv_of_nonneg a hb

@[simp] theorem idiv_zero_left (b : Int) : idiv mode 0 b = 0 := by
  cases mode with
  | floor => exact Int.zero_fdiv b
  | trunc => exact Int.zero_tdiv b

theorem idiv_mul_cancel_left {b : Int} (q : Int) (hb : b ≠ 0) : idiv mode (b * q) b = q := by
  cases mode with
  | floor => exact Int.mul_fdiv_cancel_left q hb
  | trunc => exact Int.mul_tdiv_cancel_left q hb

theorem idiv_mono {a a' b : Int} (hb : 0 < b) (h : a ≤ a') : idiv mode a b ≤ idiv mode a' b := by
  cases mode with
  | floor =>
    rw [idiv_floor_eq_ediv a hb.le, idiv_floor_eq_ediv a' hb.le]
    exact Int.ediv_le_ediv hb h
  | trunc => exact Int.tdiv_le_tdiv hb h

theorem le_idiv_of_mul_le {q a b : Int} (hb : 0 < b) (h : b * q ≤ a) : q ≤ idiv mode a b := by
  calc q = idiv mode (b * q) b := (idiv_mul_cancel_left mode q hb.ne').symm
    _ ≤ idiv mode a b := idiv_mono mode hb h

theorem idiv_le_of_le_mul {q a b : Int} (hb : 0 < b) (h : a ≤ b * q) : idiv mode a b ≤ q := by
  calc idiv mode a b ≤ idiv mode (b * q) b := idiv_mono mode hb h
    _ = q := idiv_mul_cancel_left mode q hb.ne'

end division

end Sys2Proof.Machine

/-! PROOFS. Width reduction (40_sample_source.md R80, R81): every channel value becomes a Sample. -/

namespace Sys2Proof.Machine

theorem conv8_eq (b : Byte) : conv8 b = (b.toNat : Int) - 128 := rfl

theorem isSample_conv8 (b : Byte) : IsSample (conv8 b) := by
  have hb := b.isLt
  simp only [IsSample, conv8_eq, sampleMin, sampleMax]
  omega

theorem isSample_convX : IsSample convX := ⟨by decide, by decide⟩

/-- The pair is little-endian: the low byte counts as it is, the high one carries the sign (20_memory.md R44). -/
theorem pcm16_eq (lo hi : Byte) : pcm16 lo hi = 256 * hi.toInt + lo.toNat :=
  BitVec.toInt_append (x := hi) (y := lo)

theorem conv16_eq (mode : DivMode) (lo hi : Byte) : conv16 mode lo hi = idiv mode (pcm16 lo hi) 256 := rfl

/-- The low byte is the remainder that floor division leaves. -/
theorem conv16_floor (lo hi : Byte) : conv16 .floor lo hi = hi.toInt := by
  have hlo := lo.isLt
  rw [conv16_eq, idiv_floor_eq_ediv _ (by decide), pcm16_eq]
  omega

/-- The quotients of the extreme 16-bit numbers are the extreme Samples under either DIV_MODE. -/
theorem isSample_conv16 (mode : DivMode) (lo hi : Byte) : IsSample (conv16 mode lo hi) := by
  have hmin : -32768 ≤ pcm16 lo hi := BitVec.le_toInt (hi ++ lo)
  have hmax : pcm16 lo hi ≤ 32767 := Int.lt_add_one_iff.1 BitVec.toInt_lt
  constructor
  · calc sampleMin = idiv mode (-32768) 256 := by cases mode <;> rfl
      _ ≤ conv16 mode lo hi := idiv_mono mode (by decide) hmin
  · calc conv16 mode lo hi ≤ idiv mode 32767 256 := idiv_mono mode (by decide) hmax
      _ = sampleMax := by cases mode <;> rfl

/-- Settles O23, by the number that a byte pair stands for. -/
theorem widthReductionGivesSamples : Obligations.WidthReductionGivesSamples :=
  fun lo hi => ⟨pcm16_eq lo hi, conv16_floor lo hi, conv8_eq lo, isSample_conv8 lo,
    fun mode => isSample_conv16 mode lo hi⟩

end Sys2Proof.Machine

/-! PROOFS. The downmix (40_sample_source.md R82, R84). -/

namespace Sys2Proof.Machine

section downmix
variable (mode : DivMode) (xs : List Int) (c : Nat)

theorem downmix_eq : downmix mode xs c = idiv mode xs.sum c := rfl

theorem downmix_floor_eq_ediv : downmix .floor xs c = xs.sum / c :=
  idiv_floor_eq_ediv _ (Int.natCast_nonneg c)

/-- Toward zero, the magnitudes divide as natural numbers. -/
theorem natAbs_downmix_trunc : (downmix .trunc xs c).natAbs = xs.sum.natAbs / c :=
  Int.natAbs_tdiv xs.sum c

theorem downmix_perm {ys : List Int} (h : xs.Perm ys) : downmix mode ys c = downmix mode xs c := by
  rw [downmix_eq, downmix_eq, h.sum_eq]

variable {c} (hc : 1 ≤ c)
include hc

theorem downmix_replicate (x : Int) : downmix mode (List.replicate c x) c = x := by
  rw [downmix_eq, List.sum_replicate, nsmul_eq_mul]
  exact idiv_mul_cancel_left mode x (by omega)

/-- The average of `c` Samples is a Sample: their sum lies between `c` times the bounds. -/
theorem isSample_downmix {xs : List Int} (hlength : xs.length = c) (hxs : ∀ x ∈ xs, IsSample x) :
    IsSample (downmix mode xs c) := by
  have hpos : (0 : Int) < c := by omega
  have hmin := List.card_nsmul_le_sum xs sampleMin fun x hx => (hxs x hx).1
  have hmax := List.sum_le_card_nsmul xs sampleMax fun x hx => (hxs x hx).2
  rw [hlength, nsmul_eq_mul] at hmin hmax
  exact ⟨le_idiv_of_mul_le mode hpos hmin, idiv_le_of_le_mul mode hpos hmax⟩

end downmix

/-- Settles O25, by the Euclidean quotient under floor and that of the magnitudes under trunc. -/
theorem downmixAverages : Obligations.DownmixAverages := by
  intro xs c hc
  have hpos : (0 : Int) < c := by omega
  rw [downmix_floor_eq_ediv, natAbs_downmix_trunc]
  refine ⟨Int.ediv_mul_le _ hpos.ne', Int.lt_ediv_add_one_mul_self _ hpos, Nat.div_mul_le_self _ _, ?_,
    fun hsum => le_idiv_of_mul_le .trunc hpos (by simpa using hsum),
    fun hsum => idiv_le_of_le_mul .trunc hpos (by simpa using hsum),
    fun mode => ⟨downmix_replicate mode hc, fun ys hperm => downmix_perm mode xs c hperm⟩⟩
  rw [Nat.succ_mul]
  exact Nat.lt_div_mul_add hc

end Sys2Proof.Machine

/-! PROOFS. SF.FRAME (40_sample_source.md R83 to R85) on a payload of the right length. -/

namespace Sys2Proof.Machine

/-- What FRAME's length check asks of a payload (44_commands.md R131). -/
theorem frameLengthWrong_eq_false_iff (payload : List Byte) (r : ConfigRegs) :
    frameLengthWrong payload r = false ↔
      (r.width.toNat = 8 → payload.length = r.channels.toNat) ∧
      (r.width.toNat = 16 → payload.length = 2 * r.channels.toNat) := by
  simp [frameLengthWrong]

section reducedChannels
variable (mode : DivMode)

theorem length_conv16Pairs : (payload : List Byte) → (conv16Pairs mode payload).length = payload.length / 2
  | [] => rfl
  | [_] => by simp [conv16Pairs]
  | lo :: hi :: rest => by
    simp only [conv16Pairs, List.length_cons, length_conv16Pairs rest]
    omega

theorem isSample_of_mem_conv16Pairs : (payload : List Byte) → ∀ x ∈ conv16Pairs mode payload, IsSample x
  | [] => nofun
  | [_] => nofun
  | lo :: hi :: rest => List.forall_mem_cons.2 ⟨isSample_conv16 mode lo hi, isSample_of_mem_conv16Pairs rest⟩

variable (payload : List Byte)

/-- The reduced pairs, listed by channel (R66). -/
theorem conv16Pairs_eq_map_range {c : Nat} (hlength : payload.length = 2 * c) :
    conv16Pairs mode payload = (List.range c).map fun k =>
      conv16 mode (payload.getD (2 * k) 0) (payload.getD (2 * k + 1) 0) := by
  refine List.ext_getElem (by simp [length_conv16Pairs, hlength]) fun k _ hk => ?_
  rw [List.length_map, List.length_range] at hk
  have hlo : 2 * k < payload.length := by omega
  have hhi : 2 * k + 1 < payload.length := by omega
  have hpair := conv16Pairs_getElem? mode (List.getElem?_eq_getElem hlo) (List.getElem?_eq_getElem hhi)
  simpa [hlo, hhi] using (List.getElem?_eq_some_iff.1 hpair).2

theorem isSample_of_mem_channelSamples (c w : Nat) : ∀ x ∈ channelSamples mode payload c w, IsSample x := by
  unfold channelSamples
  split_ifs
  · exact List.forall_mem_map.2 fun b _ => isSample_conv8 b
  · exact isSample_of_mem_conv16Pairs mode payload
  · intro x hx
    rw [List.eq_of_mem_replicate hx]
    exact isSample_convX

/-- A payload that passes the length check holds one channel sample for each channel. -/
theorem length_channelSamples {r : ConfigRegs} (hlength : frameLengthWrong payload r = false) :
    (channelSamples mode payload r.channels.toNat r.width.toNat).length = r.channels.toNat := by
  obtain ⟨h8, h16⟩ := (frameLengthWrong_eq_false_iff payload r).1 hlength
  unfold channelSamples
  split_ifs with hw8 hw16
  · rw [List.length_map, h8 hw8]
  · rw [length_conv16Pairs, h16 hw16]
    omega
  · exact List.length_replicate

theorem frameSample_unsupported (c : Nat) {w : Nat} (h8 : w ≠ 8) (h16 : w ≠ 16) :
    frameSample mode payload c w = 0 := by
  rw [frameSample, channelSamples_unsupported mode payload c h8 h16, downmix_eq]
  simp

end reducedChannels

/-- Settles O26: the channel samples are as many Samples as there are channels, listed under each width. -/
theorem frameGivesOneSample : Obligations.FrameGivesOneSample := by
  intro mode payload r hchannels hlength
  have hpos : 1 ≤ r.channels.toNat := Nat.pos_of_ne_zero (BitVec.toNat_ne_iff_ne.2 hchannels)
  obtain ⟨-, h16⟩ := (frameLengthWrong_eq_false_iff payload r).1 hlength
  refine ⟨?_, fun hw => ?_, fun hw => ?_, fun hw8 hw16 => ?_⟩
  · exact isSample_downmix mode hpos (length_channelSamples mode payload hlength)
      (isSample_of_mem_channelSamples mode payload _ _)
  · rw [hw]
    rfl
  · have hpairs := conv16Pairs_eq_map_range mode payload (h16 (congrArg BitVec.toNat hw))
    rw [hw]
    exact congrArg (downmix mode · _) hpairs
  · exact frameSample_unsupported mode payload _ (BitVec.toNat_ne_iff_ne.2 hw8) (BitVec.toNat_ne_iff_ne.2 hw16)

end Sys2Proof.Machine

/-! PROOFS. FRAME accepted (44_commands.md R131), and SRC.STEP under equal rates (41_resampler.md R93). -/

namespace Sys2Proof.Machine

/-- Where FRAME's checks pass, the Sample of its frame is presented to SRC, with the width flagged. -/
theorem exec_frame_accepted {s : State} {p : List Byte} (hmode : s.status.mode = .run)
    (hchannels : s.regs.channels ≠ 0) (hlength : frameLengthWrong p s.regs = false) :
    exec (.frame p) s = present binary64
      (frameSample .floor p s.regs.channels.toNat s.regs.width.toNat) (flagWidth s) := by
  change frameWith referenceConfig p s = _
  rw [frameWith, if_neg (by simp), if_neg (by simp [hmode]), if_neg hchannels, if_neg (by simp [hlength]),
    referenceConfig_cursor, referenceConfig_divMode]

/-- Under equal rates a presented Sample is forwarded once, and the index advances. -/
theorem present_of_equal_rates (c : CursorNum) (x : Int) {s : State} (hrates : s.regs.srcRate = s.regs.tgtRate)
    (hn : s.cur.n + 1 < runLimit) : present c x s = .next (forward x s).nextIndex := by
  rw [present, if_neg (Nat.not_le.2 hn), srcStep, if_pos hrates]

theorem flagWidth_unsupported {s : State} (h8 : s.regs.width.toNat ≠ 8) (h16 : s.regs.width.toNat ≠ 16) :
    flagWidth s = s.setWUnsup true := by
  simp [flagWidth, widthSupported, h8, h16]

/-- Settles O32: no length is wrong under such a width, so FRAME is accepted, and its Sample is 0. -/
theorem unsupportedWidthEncodesZero : Obligations.UnsupportedWidthEncodesZero := by
  intro s p hmode hchannels hw8 hw16 hrates hn
  have h8 : s.regs.width.toNat ≠ 8 := BitVec.toNat_ne_iff_ne.2 hw8
  have h16 : s.regs.width.toNat ≠ 16 := BitVec.toNat_ne_iff_ne.2 hw16
  have hlength : frameLengthWrong p s.regs = false :=
    (frameLengthWrong_eq_false_iff p s.regs).2 ⟨fun h => absurd h h8, fun h => absurd h h16⟩
  have hexec : exec (.frame p) s = .next (forward 0 (s.setWUnsup true)).nextIndex := by
    rw [exec_frame_accepted hmode hchannels hlength, frameSample_unsupported .floor p _ h8 h16,
      flagWidth_unsupported h8 h16]
    exact present_of_equal_rates binary64 0 hrates hn
  exact ⟨_, hexec, rfl, rfl, rfl, rfl, rfl, rfl⟩

end Sys2Proof.Machine

/-! PROOFS. The number format of the cursor (41_resampler.md R90, R91): the values binary64 holds exactly, its sum,
its rounding, and the latched ratio. -/

namespace Sys2Proof.Machine

theorem f64Real_of_toNat_le {x y : F64} (h : x.toNat ≤ y.toNat) (hy : f64Real y = true) : f64Real x = true :=
  decide_eq_true (lt_of_le_of_lt h (of_decide_eq_true hy))

theorem f64Add_eq_round {a b : F64} (ha : f64Real a = true) (hb : f64Real b = true) :
    f64Add a b = f64Round (f64Scaled a + f64Scaled b) 1 := by
  simp [f64Add, ha, hb]

theorem f64Div_eq_round {a b : F64} (ha : f64Real a = true) (hb : f64Real b = true) (hpos : 0 < f64Scaled b) :
    f64Div a b = f64Round (f64Scaled a * f64Unit) (f64Scaled b) := by
  simp [f64Div, ha, hb, hpos.ne']

theorem f64Floor_eq_div {a : F64} (ha : f64Real a = true) : f64Floor a = f64Scaled a / f64Unit := by
  simp [f64Floor, ha]

/-- The sum of finite values never falls below the first, as a pattern. -/
theorem toNat_le_f64Add {a b : F64} (ha : f64Real a = true) (hb : f64Real b = true) :
    a.toNat ≤ (f64Add a b).toNat := by
  rw [f64Add_eq_round ha hb]
  exact le_f64Round _ 1 a one_pos ha (by omega)

/-- Settles O41: rounding is monotone, and the exact sum is not below the first operand. -/
theorem sumNeverBelowItsOperand : Obligations.SumNeverBelowItsOperand := fun _ _ ha hb =>
  ⟨toNat_le_f64Add ha hb, f64Scaled_mono _ _ (toNat_le_f64Add ha hb)⟩

/-! Patterns by significand and place, and the values held exactly. -/

section pattern
variable {y : F64} {drop m : Nat} (hbound : drop * 2 ^ 52 + m < 2 ^ 64) (hm : m ≤ 2 ^ 53)
  (hnormal : drop ≠ 0 → 2 ^ 52 ≤ m)
include hbound hm hnormal

theorem exists_toNat_eq : ∃ z : F64, z.toNat = drop * 2 ^ 52 + m ∧ f64Scaled z = m * 2 ^ drop :=
  have htoNat : (BitVec.ofNat 64 (drop * 2 ^ 52 + m)).toNat = drop * 2 ^ 52 + m := by
    rw [BitVec.toNat_ofNat, Nat.mod_eq_of_lt hbound]
  ⟨_, htoNat, f64Scaled_pattern _ drop m htoNat hm hnormal⟩

theorem f64Scaled_le_of_toNat_le (h : y.toNat ≤ drop * 2 ^ 52 + m) : f64Scaled y ≤ m * 2 ^ drop := by
  obtain ⟨z, htoNat, hvalue⟩ := exists_toNat_eq hbound hm hnormal
  exact hvalue ▸ f64Scaled_mono y z (h.trans_eq htoNat.symm)

theorem le_f64Scaled_of_le_toNat (h : drop * 2 ^ 52 + m ≤ y.toNat) : m * 2 ^ drop ≤ f64Scaled y := by
  obtain ⟨z, htoNat, hvalue⟩ := exists_toNat_eq hbound hm hnormal
  exact hvalue ▸ f64Scaled_mono z y (htoNat.trans_le h)

end pattern

/-- A finite pattern with a normal significand, or with the place of the subnormals, has the value it spells. -/
theorem exists_f64Scaled_eq_of_normal {m drop : Nat} (hm : m < 2 ^ 53) (hdrop : drop ≤ 2045)
    (hnormal : drop ≠ 0 → 2 ^ 52 ≤ m) : ∃ y : F64, f64Real y = true ∧ f64Scaled y = m * 2 ^ drop := by
  have hbelow : drop * 2 ^ 52 + m < f64Infinity := by unfold f64Infinity; omega
  obtain ⟨y, htoNat, hvalue⟩ := exists_toNat_eq (hbelow.trans (by decide)) hm.le hnormal
  exact ⟨y, decide_eq_true (htoNat.trans_lt hbelow), hvalue⟩

/-- Every number of at most 53 bits at a place inside the range is a finite value: doubling the significand
normalises it. -/
theorem exists_f64Scaled_eq {m drop : Nat} (hm : m < 2 ^ 53) (hdrop : drop ≤ 2045) :
    ∃ y : F64, f64Real y = true ∧ f64Scaled y = m * 2 ^ drop := by
  induction drop generalizing m with
  | zero => exact exists_f64Scaled_eq_of_normal hm hdrop (absurd rfl)
  | succ drop ih =>
    rcases Nat.lt_or_ge m (2 ^ 52) with hsmall | hnormal
    · obtain ⟨y, hy, hvalue⟩ := ih (m := 2 * m) (by omega) (by omega)
      exact ⟨y, hy, by rw [hvalue, Nat.pow_succ]; ring⟩
    · exact exists_f64Scaled_eq_of_normal hm hdrop fun _ => hnormal

/-- In particular every natural number of at most 53 significant bits, far beyond every cursor. -/
theorem exists_f64Scaled_eq_mul_unit {k : Nat} (hk : k < 2 ^ 53) (j : Nat) (hj : j ≤ 64) :
    ∃ y : F64, f64Real y = true ∧ f64Scaled y = k * 2 ^ j * f64Unit := by
  obtain ⟨n, hn⟩ : ∃ n, n = 1074 := ⟨_, rfl⟩
  obtain ⟨y, hy, hvalue⟩ := exists_f64Scaled_eq (drop := j + n) hk (by omega)
  exact ⟨y, hy, by rw [hvalue, Nat.pow_add, f64Unit_eq_pow n hn, Nat.mul_assoc]⟩

section exactNaturals
variable {k : Nat} (hk : k < 2 ^ 53)
include hk

theorem f64OfNat_spec : f64Real (f64OfNat k) = true ∧ f64Scaled (f64OfNat k) = k * f64Unit := by
  obtain ⟨y, hy, hvalue⟩ := exists_f64Scaled_eq_mul_unit hk 0 (by omega)
  rw [Nat.pow_zero, mul_one] at hvalue
  have hround : f64OfNat k = y := f64Round_exact _ 1 y one_pos hy (by rw [hvalue, mul_one])
  exact hround ▸ ⟨hy, hvalue⟩

theorem f64Real_ofNat : f64Real (f64OfNat k) = true := (f64OfNat_spec hk).1

theorem f64Scaled_ofNat : f64Scaled (f64OfNat k) = k * f64Unit := (f64OfNat_spec hk).2

theorem f64Floor_ofNat : f64Floor (f64OfNat k) = k := by
  rw [f64Floor_eq_div (f64Real_ofNat hk), f64Scaled_ofNat hk, Nat.mul_div_cancel _ f64Unit_pos]

end exactNaturals

/-- Settles O42: a natural number below 2^53 is one of the values held exactly. -/
theorem naturalsBelowTwoToThe53AreExact : Obligations.NaturalsBelowTwoToThe53AreExact := fun _ hk =>
  ⟨f64Real_ofNat hk, f64Scaled_ofNat hk, f64Floor_ofNat hk⟩

/-! Rounding. -/

theorem eq_of_f64Scaled_eq {x y : F64} (hx : f64Real x = true) (hy : f64Real y = true)
    (h : f64Scaled x = f64Scaled y) : x = y :=
  calc x = f64Round (f64Scaled x) 1 := (f64Round_exact _ 1 x one_pos hx (mul_one _).symm).symm
    _ = y := f64Round_exact _ 1 y one_pos hy (by rw [h, mul_one])

/-- The significand is the integer part of the quotient or the next one, whichever is nearer. -/
theorem f64Significand_nearer (num den drop : Nat) :
    f64Significand num den drop = num / (den * 2 ^ drop) ∧ 2 * (num % (den * 2 ^ drop)) ≤ den * 2 ^ drop ∨
    f64Significand num den drop = num / (den * 2 ^ drop) + 1 ∧ den * 2 ^ drop ≤ 2 * (num % (den * 2 ^ drop)) := by
  unfold f64Significand
  dsimp only
  split <;> omega

/-- Half way between two significands the even one is chosen. -/
theorem f64Significand_even_of_tie {num den drop : Nat} (htie : 2 * (num % (den * 2 ^ drop)) = den * 2 ^ drop) :
    f64Significand num den drop % 2 = 0 := by
  unfold f64Significand
  dsimp only
  split <;> omega

/-- The integer part of the exact quotient at the chosen place is normal unless no bit is dropped, and has at
most 53 bits. -/
theorem f64Quotient_bounds (num den : Nat) :
    num / (den * 2 ^ (Nat.log2 (num / den) - 52)) < 2 ^ 53 ∧
    (Nat.log2 (num / den) - 52 ≠ 0 → 2 ^ 52 ≤ num / (den * 2 ^ (Nat.log2 (num / den) - 52))) := by
  rw [← Nat.div_div_eq_div_mul]
  generalize num / den = q
  constructor
  · rw [Nat.div_lt_iff_lt_mul (Nat.two_pow_pos _), ← Nat.pow_add]
    exact Nat.lt_log2_self.trans_le (Nat.pow_le_pow_right two_pos (by omega))
  · intro hdrop
    have hpos : q ≠ 0 := by rintro rfl; simp at hdrop
    rw [Nat.le_div_iff_mul_le (Nat.two_pow_pos _), ← Nat.pow_add]
    exact (Nat.pow_le_pow_right two_pos (by omega)).trans (Nat.log2_self_le hpos)

/-- No value lies strictly between two neighbouring significands at one place. -/
theorem f64Scaled_le_or_ge {drop q : Nat} (hbound : drop * 2 ^ 52 + (q + 1) < 2 ^ 64) (hq : q < 2 ^ 53)
    (hnormal : drop ≠ 0 → 2 ^ 52 ≤ q) (y : F64) :
    f64Scaled y ≤ q * 2 ^ drop ∨ (q + 1) * 2 ^ drop ≤ f64Scaled y := by
  rcases Nat.lt_or_ge (drop * 2 ^ 52 + q) y.toNat with h | h
  · exact .inr (le_f64Scaled_of_le_toNat hbound hq (fun hdrop => (hnormal hdrop).trans q.le_succ) h)
  · exact .inl (f64Scaled_le_of_toNat_le ((Nat.lt_succ_self _).trans hbound) hq.le hnormal h)

/-- Of the multiples `q * d` and `(q + 1) * d` around `num` the nearer one is at most as far from `num` as any number
that is not between them, and as far only where it is that number or `num` is half way. -/
theorem nearer_multiple_nearest {num d q r m y : Nat} (hnum : d * q + r = num) (hr : r < d)
    (hm : m = q ∧ 2 * r ≤ d ∨ m = q + 1 ∧ d ≤ 2 * r) (hy : y ≤ q * d ∨ (q + 1) * d ≤ y) :
    (((m * d : Nat) : Int) - num).natAbs ≤ ((y : Int) - num).natAbs ∧
    ((((m * d : Nat) : Int) - num).natAbs = ((y : Int) - num).natAbs → y = m * d ∨ 2 * r = d) := by
  have hsucc : (q + 1) * d = q * d + d := Nat.succ_mul q d
  rw [Nat.mul_comm] at hnum
  obtain ⟨rfl, hhalf⟩ | ⟨rfl, hhalf⟩ := hm
  · omega
  · rw [hsucc] at hy ⊢
    omega

/-- A rounded quotient that is finite is the nearest finite value, and the even one of two nearest. -/
theorem nearestEven_f64Round {num den : Nat} (hden : 0 < den) (hreal : f64Real (f64Round num den) = true) :
    NearestEven num den (f64Round num den) := by
  intro y hy
  have hvalue := f64Scaled_round num den hreal
  have hpattern := f64Round_toNat num den
  have hfinite : (f64Round num den).toNat < f64Infinity := of_decide_eq_true hreal
  have hnearer := f64Significand_nearer num den (Nat.log2 (num / den) - 52)
  have heven := f64Significand_even_of_tie (num := num) (den := den) (drop := Nat.log2 (num / den) - 52)
  obtain ⟨hquotient, hnormal⟩ := f64Quotient_bounds num den
  have hdivMod := Nat.div_add_mod num (den * 2 ^ (Nat.log2 (num / den) - 52))
  have hmod := Nat.mod_lt num (Nat.mul_pos hden (Nat.two_pow_pos (Nat.log2 (num / den) - 52)))
  generalize f64Significand num den (Nat.log2 (num / den) - 52) = m at *
  generalize Nat.log2 (num / den) - 52 = drop at *
  generalize num / (den * 2 ^ drop) = q at *
  generalize num % (den * 2 ^ drop) = r at *
  have hscale (k : Nat) : k * 2 ^ drop * den = k * (den * 2 ^ drop) := by ring
  have hbound : f64Infinity + 1 < 2 ^ 64 := by decide
  have hgap : f64Scaled y * den ≤ q * (den * 2 ^ drop) ∨ (q + 1) * (den * 2 ^ drop) ≤ f64Scaled y * den := by
    rw [← hscale, ← hscale]
    exact (f64Scaled_le_or_ge (by omega) hquotient hnormal y).imp
      (Nat.mul_le_mul_right den) (Nat.mul_le_mul_right den)
  obtain ⟨hnearest, htie⟩ := nearer_multiple_nearest hdivMod hmod hnearer hgap
  rw [← hscale, ← hvalue, Nat.cast_mul, Nat.cast_mul] at hnearest htie
  refine ⟨hnearest, fun heq => ?_⟩
  obtain hsame | hhalf := htie heq
  · exact .inl (eq_of_f64Scaled_eq hy hreal (Nat.eq_of_mul_eq_mul_right hden hsame))
  · have hm := heven hhalf
    exact .inr (by omega)

/-- Settles O43: both operations round the exact value once. -/
theorem sumsAndQuotientsAreCorrectlyRounded : Obligations.SumsAndQuotientsAreCorrectlyRounded := by
  intro a b ha hb
  constructor
  · rw [f64Add_eq_round ha hb]
    exact nearestEven_f64Round one_pos
  · intro hpos
    rw [f64Div_eq_round ha hb hpos]
    exact nearestEven_f64Round hpos

/-! The latched ratio. -/

section ratio
variable {r : ConfigRegs}

theorem srcRatio_eq_round (htgt : r.tgtRate ≠ 0) : srcRatio binary64 r =
    f64Round (r.srcRate.toNat * f64Unit * f64Unit) (r.tgtRate.toNat * f64Unit) := by
  have hsrc' : r.srcRate.toNat < 2 ^ 53 := by omega
  have htgt' : r.tgtRate.toNat < 2 ^ 53 := by omega
  have hpos : 0 < r.tgtRate.toNat := by bv_omega
  rw [← f64Scaled_ofNat hsrc', ← f64Scaled_ofNat htgt']
  exact f64Div_eq_round (f64Real_ofNat hsrc') (f64Real_ofNat htgt')
    (f64Scaled_ofNat htgt' ▸ Nat.mul_pos hpos f64Unit_pos)

/-- The quotient of two rates is at most the largest rate, which is below 2^32. -/
theorem srcRatio_le (htgt : r.tgtRate ≠ 0) : (srcRatio binary64 r).toNat ≤ (f64OfNat (2 ^ 32)).toNat := by
  have hpos : 0 < r.tgtRate.toNat := by bv_omega
  rw [srcRatio_eq_round htgt]
  refine f64Round_le _ _ _ (Nat.mul_pos hpos f64Unit_pos) ?_
  rw [f64Scaled_ofNat (by omega)]
  calc r.srcRate.toNat * f64Unit * f64Unit
      ≤ 2 ^ 32 * f64Unit * (r.tgtRate.toNat * f64Unit) :=
        Nat.mul_le_mul (Nat.mul_le_mul_right _ r.srcRate.isLt.le) (Nat.le_mul_of_pos_left _ hpos)

theorem f64Real_srcRatio (htgt : r.tgtRate ≠ 0) : f64Real (srcRatio binary64 r) = true :=
  f64Real_of_toNat_le (srcRatio_le htgt) (f64Real_ofNat (by omega))

theorem f64Scaled_srcRatio_le (htgt : r.tgtRate ≠ 0) : f64Scaled (srcRatio binary64 r) ≤ 2 ^ 32 * f64Unit :=
  (f64Scaled_mono _ _ (srcRatio_le htgt)).trans_eq (f64Scaled_ofNat (by omega))

theorem two_pow_32_le_f64Unit : 2 ^ 32 ≤ f64Unit := by
  obtain ⟨n, hn⟩ : ∃ n, n = 1074 := ⟨_, rfl⟩
  rw [f64Unit_eq_pow n hn]
  exact Nat.pow_le_pow_right two_pos (by omega)

/-- The quotient of two rates is at least the smallest positive value, so rounding does not lose it. -/
theorem f64Scaled_srcRatio_pos (hsrc : r.srcRate ≠ 0) (htgt : r.tgtRate ≠ 0) :
    0 < f64Scaled (srcRatio binary64 r) := by
  have hsrc' : 0 < r.srcRate.toNat := by bv_omega
  have hpos : 0 < r.tgtRate.toNat := by bv_omega
  have hsmallest : f64Scaled 1 = 1 := by decide
  refine hsmallest.symm.trans_le (f64Scaled_mono 1 _ ?_)
  rw [srcRatio_eq_round htgt]
  refine le_f64Round _ _ _ (Nat.mul_pos hpos f64Unit_pos) (by decide) ?_
  rw [hsmallest, one_mul]
  exact Nat.mul_le_mul_right _ (r.tgtRate.isLt.le.trans
    (two_pow_32_le_f64Unit.trans (Nat.le_mul_of_pos_left _ hsrc')))

theorem srcRatio_of_equal_rates (htgt : r.tgtRate ≠ 0) (heq : r.srcRate = r.tgtRate) :
    srcRatio binary64 r = f64OfNat 1 := by
  have hpos : 0 < r.tgtRate.toNat := by bv_omega
  rw [srcRatio_eq_round htgt, heq]
  refine f64Round_exact _ _ _ (Nat.mul_pos hpos f64Unit_pos) (f64Real_ofNat (by omega)) ?_
  rw [f64Scaled_ofNat (by omega)]
  ring

end ratio

/-- Settles O44: the quotient lies between the smallest positive value and 2^32, and rounding is monotone. -/
theorem latchedRatioIsPositive : Obligations.LatchedRatioIsPositive := fun _ hsrc htgt =>
  ⟨f64Real_srcRatio htgt, f64Scaled_srcRatio_pos hsrc htgt, f64Scaled_srcRatio_le htgt,
    srcRatio_of_equal_rates htgt⟩

end Sys2Proof.Machine

/-! PROOFS. The loop of SRC.STEP (41_resampler.md R93): for every cursor format it returns after `k` turns exactly
where the cursor leaves the index after `k` additions of the ratio. -/

namespace Sys2Proof.Machine

section cursorAfter
variable (c : CursorNum) (ratio : F64)

theorem cursorAfter_add (i j : Nat) (idx : F64) :
    cursorAfter c ratio (i + j) idx = cursorAfter c ratio j (cursorAfter c ratio i idx) := by
  induction i generalizing idx with
  | zero => rw [Nat.zero_add]; rfl
  | succ i ih => rw [Nat.succ_add]; exact ih _

theorem cursorAfter_of_fixed {idx : F64} (hfixed : c.fadd idx ratio = idx) (k : Nat) :
    cursorAfter c ratio k idx = idx := by
  induction k with
  | zero => rfl
  | succ k ih => rw [cursorAfter, hfixed, ih]

end cursorAfter

/-- The cursor of `s` stands on the index for `k` additions of the ratio and is off it after them. -/
structure CursorLeaves (c : CursorNum) (s : State) (k : Nat) : Prop where
  stays : ∀ j, j < k → c.ffloor (cursorAfter c s.cur.ratio j s.cur.idx) = s.cur.n
  leaves : c.ffloor (cursorAfter c s.cur.ratio k s.cur.idx) ≠ s.cur.n

section loop
variable {c : CursorNum} {x : Int} {s t : State} {k : Nat}

theorem cursorLeaves_zero_iff : CursorLeaves c s 0 ↔ c.ffloor s.cur.idx ≠ s.cur.n :=
  ⟨fun h => h.leaves, fun h => ⟨fun _ hj => absurd hj (Nat.not_lt_zero _), h⟩⟩

theorem cursorLeaves_succ_iff :
    CursorLeaves c s (k + 1) ↔ c.ffloor s.cur.idx = s.cur.n ∧ CursorLeaves c (srcTurn c x s) k := by
  constructor
  · intro h
    exact ⟨h.stays 0 k.succ_pos, fun j hj => h.stays (j + 1) (Nat.succ_lt_succ hj), h.leaves⟩
  · rintro ⟨hon, hstays, hleaves⟩
    refine ⟨fun j hj => ?_, hleaves⟩
    cases j with
    | zero => exact hon
    | succ j => exact hstays j (Nat.lt_of_succ_lt_succ hj)

/-- A cursor that an addition does not move never leaves an index it stands on. -/
theorem CursorLeaves.fadd_ne (h : CursorLeaves c s k) (hon : c.ffloor s.cur.idx = s.cur.n) :
    c.fadd s.cur.idx s.cur.ratio ≠ s.cur.idx := fun hfixed =>
  h.leaves (by rw [cursorAfter_of_fixed c _ hfixed, hon])

/-- The fuel of the loop loses no turn: among 2^64 + 1 cursors one comes back, and what comes back does not leave. -/
theorem CursorLeaves.lt_srcFuel (h : CursorLeaves c s k) : k < srcFuel := by
  by_contra hk
  have hcard : Fintype.card (Fin (2 ^ 64)) < Fintype.card (Fin (k + 1)) := by
    rw [Fintype.card_fin, Fintype.card_fin]
    exact Nat.lt_succ_of_le (Nat.not_lt.1 hk)
  obtain ⟨i, j, hne, hsame⟩ := Fintype.exists_ne_map_eq_of_card_lt
    (fun i : Fin (k + 1) => (cursorAfter c s.cur.ratio i s.cur.idx).toFin) hcard
  wlog hij : i < j generalizing i j
  · exact this j i hne.symm hsame.symm (lt_of_le_of_ne (not_lt.1 hij) hne.symm)
  have hback : cursorAfter c s.cur.ratio k s.cur.idx = cursorAfter c s.cur.ratio (i + (k - j)) s.cur.idx := by
    have hk : k = j + (k - j) := by omega
    calc cursorAfter c s.cur.ratio k s.cur.idx
        = cursorAfter c s.cur.ratio (k - j) (cursorAfter c s.cur.ratio j s.cur.idx) := by
          rw [← cursorAfter_add, ← hk]
      _ = cursorAfter c s.cur.ratio (i + (k - j)) s.cur.idx := by
          rw [← BitVec.toFin_inj.1 hsame, cursorAfter_add]
  exact h.leaves (hback ▸ h.stays _ (by omega))

theorem srcLoop_of_cursorLeaves {fuel : Nat} (hk : k < fuel) (h : CursorLeaves c s k) :
    srcLoop c x fuel s = .done (srcTurns c x k s) := by
  induction k generalizing s fuel with
  | zero =>
    cases fuel with
    | zero => exact absurd hk (Nat.not_lt_zero _)
    | succ fuel => exact if_neg (cursorLeaves_zero_iff.1 h)
  | succ k ih =>
    cases fuel with
    | zero => exact absurd hk (Nat.not_lt_zero _)
    | succ fuel =>
      obtain ⟨hon, hturn⟩ := (cursorLeaves_succ_iff (x := x)).1 h
      rw [srcLoop, if_pos hon, if_neg (h.fadd_ne hon), ih (Nat.lt_of_succ_lt_succ hk) hturn, srcTurns]

/-- With the model's fuel the loop returns exactly where the cursor leaves the index, after that many turns. -/
theorem srcLoop_eq_done_iff :
    srcLoop c x srcFuel s = .done t ↔ ∃ k, CursorLeaves c s k ∧ t = srcTurns c x k s := by
  constructor
  · intro hdone
    obtain ⟨k, -, rfl, hoff, hon⟩ := srcLoop_done c x srcFuel s t hdone
    refine ⟨k, ⟨fun j hj => ?_, ?_⟩, rfl⟩
    · obtain ⟨-, -, hidx, -⟩ := srcTurns_frame c x j s
      exact hidx ▸ hon j hj
    · obtain ⟨hn, -, hidx, -⟩ := srcTurns_frame c x k s
      rwa [hidx, hn] at hoff
  · rintro ⟨k, h, rfl⟩
    exact srcLoop_of_cursorLeaves h.lt_srcFuel h

theorem srcStep_eq_done_iff (hrates : s.regs.srcRate ≠ s.regs.tgtRate) :
    srcStep c x s = .done t ↔ ∃ k, CursorLeaves c s k ∧ t = (srcTurns c x k s).nextIndex := by
  rw [srcStep, if_neg hrates]
  constructor
  · intro hdone
    split at hdone
    case h_1 u hu =>
      obtain ⟨k, h, rfl⟩ := srcLoop_eq_done_iff.1 hu
      exact ⟨k, h, (SrcResult.done.inj hdone).symm⟩
    case h_2 => cases hdone
  · rintro ⟨k, h, rfl⟩
    rw [srcLoop_eq_done_iff.2 ⟨k, h, rfl⟩]

/-- SAMPLE in RUN presents its operand to SRC (44_commands.md R129). -/
theorem execWith_sample (cfg : Config) (b : Byte) (hmode : s.status.mode = .run) :
    execWith cfg (.sample b) s = present cfg.cursor b.toInt s := by
  change sampleWith cfg b s = _
  rw [sampleWith, if_neg (by simp [hmode])]
  rfl

theorem present_of_cursorLeaves (hrates : s.regs.srcRate ≠ s.regs.tgtRate) (hn : s.cur.n + 1 < runLimit)
    (h : CursorLeaves c s k) : present c x s = .next ((srcTurns c x k s).withIndex (s.cur.n + 1)) := by
  obtain ⟨hindex, -⟩ := srcTurns_frame c x k s
  rw [present, if_neg (Nat.not_le.2 hn), (srcStep_eq_done_iff hrates).2 ⟨k, h, rfl⟩, ← hindex]
  rfl

end loop

/-- Settles O29: the loop takes `k` turns, and the index advances. -/
theorem sampleForwardsWhileTheCursorIsOnIt : Obligations.SampleForwardsWhileTheCursorIsOnIt := by
  have hany (cfg : Config) (s : State) (b : Byte) (k : Nat) (hmode : s.status.mode = .run)
      (hrates : s.regs.srcRate ≠ s.regs.tgtRate) (hn : s.cur.n + 1 < 2 ^ 53)
      (hleaves : CursorLeaves cfg.cursor s k) : execWith cfg (.sample b) s =
        .next ((srcTurns cfg.cursor b.toInt k s).withIndex (s.cur.n + 1)) :=
    (execWith_sample cfg b hmode).trans (present_of_cursorLeaves hrates hn hleaves)
  exact ⟨fun cfg s b k hmode hrates hn hstays hoff => hany cfg s b k hmode hrates hn ⟨hstays, hoff⟩,
    fun s b k hmode hrates hn hstays hoff => hany referenceConfig s b k hmode hrates hn ⟨hstays, hoff⟩⟩

/-- Settles O28: the case of O29 with no turn. -/
theorem skippedSampleMovesOnlyTheIndex : Obligations.SkippedSampleMovesOnlyTheIndex :=
  fun s b hmode hrates hn hoff => sampleForwardsWhileTheCursorIsOnIt.2 s b 0 hmode hrates hn
    (fun _ hj => absurd hj (Nat.not_lt_zero _)) hoff

/-- Below 2^53 a step of 1.0 takes one natural number to the next. -/
theorem f64Add_ofNat_one {k : Nat} (hk : k + 1 < 2 ^ 53) : f64Add (f64OfNat k) (f64OfNat 1) = f64OfNat (k + 1) := by
  have hk' : k < 2 ^ 53 := by omega
  have hone : 1 < 2 ^ 53 := by omega
  rw [f64Add_eq_round (f64Real_ofNat hk') (f64Real_ofNat hone), f64Scaled_ofNat hk', f64Scaled_ofNat hone,
    ← Nat.add_mul, f64OfNat]

/-- Settles O40: the cursor stands on `n` and is at `n + 1` after one addition. -/
theorem generalBranchForwardsOnceAtRatioOne : Obligations.GeneralBranchForwardsOnceAtRatioOne := by
  intro s x hratio hidx hn
  have hnext : binary64.fadd s.cur.idx s.cur.ratio = f64OfNat (s.cur.n + 1) := by
    rw [binary64_fadd, hratio, hidx, f64Add_ofNat_one hn]
  have hon : binary64.ffloor s.cur.idx = s.cur.n := by
    rw [binary64_ffloor, hidx, f64Floor_ofNat (by omega)]
  have hoff : binary64.ffloor (srcTurn binary64 x s).cur.idx ≠ (srcTurn binary64 x s).cur.n := by
    rw [srcTurn_idx, srcTurn_n, hnext, binary64_ffloor, f64Floor_ofNat hn]
    exact s.cur.n.succ_ne_self
  have hleaves : CursorLeaves binary64 s 1 := cursorLeaves_succ_iff.2 ⟨hon, cursorLeaves_zero_iff.2 hoff⟩
  calc srcLoop binary64 x srcFuel s = .done (srcTurn binary64 x s) := srcLoop_eq_done_iff.2 ⟨1, hleaves, rfl⟩
    _ = .done ((forward x s).setIdx (f64OfNat (s.cur.n + 1))) := by rw [srcTurn, hnext]

end Sys2Proof.Machine

/-! PROOFS. SRC.STEP sample by sample and Resample of the whole input (41_resampler.md R92, R94), for every cursor
format: what one Sample skipped, forwarded, or forwarded for ever does to both. -/

namespace Sys2Proof.Machine

/-- The registers of SRC replaced. -/
def State.withCursor (s : State) (q : Cursor) : State := { s with cur := q }

/-- Forward neither reads nor writes the registers of SRC (44_commands.md R128). -/
theorem forwardAll_withCursor (ys : List Int) (s : State) (q : Cursor) :
    forwardAll ys (s.withCursor q) = (forwardAll ys s).withCursor q := by
  induction ys generalizing s with
  | nil => rfl
  | cons y ys ih => exact ih (forward y s)

theorem forwardAll_frame (ys : List Int) (s : State) :
    (forwardAll ys s).regs = s.regs ∧ (forwardAll ys s).status = s.status := by
  induction ys generalizing s with
  | nil => exact ⟨rfl, rfl⟩
  | cons y ys ih => exact ih (forward y s)

/-- The state after `m` Samples of which `ys` was forwarded: the ratio is added once for each forward. -/
def streamed (c : CursorNum) (ys : List Int) (m : Nat) (s : State) : State :=
  (forwardAll ys s).withCursor
    ⟨cursorAfter c s.cur.ratio ys.length s.cur.idx, s.cur.n + m, s.cur.ratio⟩

section streamed
variable (c : CursorNum) (ys : List Int) (m : Nat) (s : State)

theorem streamed_nextIndex : streamed c ys m s.nextIndex = streamed c ys (m + 1) s := by
  change (forwardAll ys (s.withCursor _)).withCursor _ = _
  rw [forwardAll_withCursor]
  simp only [streamed, State.nextIndex_cur, Nat.add_assoc, Nat.add_comm 1]
  rfl

theorem streamed_srcTurn (x : Int) : streamed c ys m (srcTurn c x s) = streamed c (x :: ys) m s := by
  change (forwardAll ys ((forward x s).withCursor _)).withCursor _ = _
  rw [forwardAll_withCursor]
  rfl

end streamed

theorem srcSteps_of_equal_rates (c : CursorNum) (xs : List Int) (s : State)
    (hrates : s.regs.srcRate = s.regs.tgtRate) :
    srcSteps c xs s = .done ((forwardAll xs s).withCursor { s.cur with n := s.cur.n + xs.length }) := by
  induction xs generalizing s with
  | nil => rfl
  | cons x xs ih =>
    rw [srcSteps, srcStep, if_pos hrates]
    refine (ih (forward x s).nextIndex hrates).trans ?_
    change SrcResult.done ((forwardAll xs ((forward x s).withCursor _)).withCursor _) = _
    rw [forwardAll_withCursor]
    simp only [State.nextIndex_cur, forward_cur, Nat.add_assoc, Nat.add_comm 1, List.length_cons]
    rfl

/-- SRC.STEP of the Samples `rest` from `s` and a Resample that answers `r` agree: both forward the same Samples,
or neither ends. -/
structure Agrees (c : CursorNum) (r : Option (List Int)) (rest : List Int) (s : State) : Prop where
  done : ∀ ys, r = some ys → srcSteps c rest s = .done (streamed c ys rest.length s)
  hang : r = none → ∀ t, srcSteps c rest s ≠ .done t

theorem SrcResult.exists_eq_hang {r : SrcResult} (h : ∀ t, r ≠ .done t) : ∃ t, r = .hang t := by
  cases r with
  | done t => exact absurd rfl (h t)
  | hang t => exact ⟨t, rfl⟩

theorem srcSteps_cons_eq_done_iff {c : CursorNum} {x : Int} {rest : List Int} {s t : State} :
    srcSteps c (x :: rest) s = .done t ↔ ∃ u, srcStep c x s = .done u ∧ srcSteps c rest u = .done t := by
  rw [srcSteps]
  cases srcStep c x s <;> simp

section agreement
variable {c : CursorNum} {r : Option (List Int)} {x : Int} {rest : List Int} {s : State}

theorem agrees_nil : Agrees c (some []) [] s where
  done := by
    rintro ys ⟨⟩
    rfl
  hang := nofun

variable (hrates : s.regs.srcRate ≠ s.regs.tgtRate)
include hrates

theorem Agrees.of_skipped (hoff : c.ffloor s.cur.idx ≠ s.cur.n) (h : Agrees c r rest s.nextIndex) :
    Agrees c r (x :: rest) s := by
  have hstep : srcStep c x s = .done s.nextIndex :=
    (srcStep_eq_done_iff hrates).2 ⟨0, cursorLeaves_zero_iff.2 hoff, rfl⟩
  have hsteps : srcSteps c (x :: rest) s = srcSteps c rest s.nextIndex := by rw [srcSteps, hstep]
  exact ⟨fun ys hys => by rw [hsteps, h.done ys hys, streamed_nextIndex, List.length_cons],
    fun hr => hsteps ▸ h.hang hr⟩

/-- Where the cursor is on the index, SRC.STEP is one turn and SRC.STEP of the same Sample again. -/
theorem srcSteps_eq_done_iff_srcTurn (hon : c.ffloor s.cur.idx = s.cur.n) {t : State} :
    srcSteps c (x :: rest) s = .done t ↔ srcSteps c (x :: rest) (srcTurn c x s) = .done t := by
  have hstep (u : State) : srcStep c x s = .done u ↔ srcStep c x (srcTurn c x s) = .done u := by
    rw [srcStep_eq_done_iff hrates, srcStep_eq_done_iff (s := srcTurn c x s) hrates]
    constructor
    · rintro ⟨k, h, rfl⟩
      cases k with
      | zero => exact absurd hon (cursorLeaves_zero_iff.1 h)
      | succ k => exact ⟨k, (cursorLeaves_succ_iff.1 h).2, rfl⟩
    · rintro ⟨k, h, rfl⟩
      exact ⟨k + 1, cursorLeaves_succ_iff.2 ⟨hon, h⟩, rfl⟩
  simp only [srcSteps_cons_eq_done_iff, hstep]

theorem Agrees.of_forwarded (hon : c.ffloor s.cur.idx = s.cur.n)
    (h : Agrees c r (x :: rest) (srcTurn c x s)) : Agrees c (r.map (x :: ·)) (x :: rest) s where
  done zs hzs := by
    obtain ⟨ys, hys, rfl⟩ := Option.map_eq_some_iff.1 hzs
    rw [srcSteps_eq_done_iff_srcTurn hrates hon, h.done ys hys, streamed_srcTurn]
  hang hr t ht := h.hang (Option.map_eq_none_iff.1 hr) t ((srcSteps_eq_done_iff_srcTurn hrates hon).1 ht)

theorem agrees_of_stalled (hon : c.ffloor s.cur.idx = s.cur.n) (hfixed : c.fadd s.cur.idx s.cur.ratio = s.cur.idx) :
    Agrees c none (x :: rest) s where
  done := nofun
  hang _ t ht := by
    obtain ⟨u, hu, -⟩ := srcSteps_cons_eq_done_iff.1 ht
    obtain ⟨k, h, -⟩ := (srcStep_eq_done_iff hrates).1 hu
    exact h.fadd_ne hon hfixed

end agreement

/-! The loop of Resample (R92), one case of its body each. -/

section resampleLoop
variable {c : CursorNum} {input : List Int} {ratio idx : F64} {fuel : Nat}

theorem resampleLoop_of_end (hend : c.flt idx (c.ofNat input.length) = false) :
    resampleLoop c input ratio (fuel + 1) idx = some [] := by
  rw [resampleLoop, hend, if_neg Bool.false_ne_true]

theorem resampleLoop_of_stalled (hless : c.flt idx (c.ofNat input.length) = true) (hfixed : c.fadd idx ratio = idx) :
    resampleLoop c input ratio (fuel + 1) idx = none := by
  rw [resampleLoop, if_pos hless, if_pos hfixed]

theorem resampleLoop_of_forwarded {x : Int} (hless : c.flt idx (c.ofNat input.length) = true)
    (hmoves : c.fadd idx ratio ≠ idx) (hx : input[c.ffloor idx]? = some x) :
    resampleLoop c input ratio (fuel + 1) idx =
      (resampleLoop c input ratio fuel (c.fadd idx ratio)).map (x :: ·) := by
  rw [resampleLoop, if_pos hless, if_neg hmoves, hx]
  cases resampleLoop c input ratio fuel (c.fadd idx ratio) <;> rfl

end resampleLoop

end Sys2Proof.Machine

/-! PROOFS. The equivalence of the two for binary64 (R94): the cursor stays finite and never falls, so it is at or
ahead of the index, and the fuel of Resample is not used up. -/

namespace Sys2Proof.Machine

theorem f64Floor_mono {x y : F64} (hy : f64Real y = true) (h : x.toNat ≤ y.toNat) : f64Floor x ≤ f64Floor y := by
  rw [f64Floor_eq_div (f64Real_of_toNat_le h hy), f64Floor_eq_div hy]
  exact Nat.div_le_div_right (f64Scaled_mono x y h)

/-- A cursor is less than a length exactly where its floor is. -/
theorem f64Less_ofNat {idx : F64} (hidx : f64Real idx = true) {k : Nat} (hk : k < 2 ^ 53) :
    f64Less idx (f64OfNat k) = decide (f64Floor idx < k) := by
  simp only [f64Less, hidx, f64Real_ofNat hk, Bool.and_self, if_true, f64Scaled_ofNat hk, f64Floor_eq_div hidx,
    Nat.div_lt_iff_lt_mul f64Unit_pos]

/-- No cursor inside an input overflows by adding a ratio: the sum is at most 2^54. -/
theorem f64Real_add {idx ratio : F64} (hidx : f64Real idx = true) (hratio : f64Real ratio = true)
    (hfloor : f64Floor idx < 2 ^ 53) (hbound : f64Scaled ratio ≤ 2 ^ 32 * f64Unit) :
    f64Real (f64Add idx ratio) = true := by
  obtain ⟨top, htop, hvalue⟩ := exists_f64Scaled_eq_mul_unit (k := 1) (by omega) 54 (by omega)
  rw [f64Floor_eq_div hidx, Nat.div_lt_iff_lt_mul f64Unit_pos] at hfloor
  rw [f64Add_eq_round hidx hratio]
  refine f64Real_of_toNat_le (f64Round_le _ 1 top one_pos ?_) htop
  rw [hvalue]
  omega

/-- What holds of `s` when the Samples `rest` of `input` are still to come. -/
structure Streaming (input rest : List Int) (s : State) : Prop where
  rates : s.regs.srcRate ≠ s.regs.tgtRate
  rest_eq : input.drop s.cur.n = rest
  ratioReal : f64Real s.cur.ratio = true
  ratioBound : f64Scaled s.cur.ratio ≤ 2 ^ 32 * f64Unit
  idxReal : f64Real s.cur.idx = true
  ahead : s.cur.n ≤ f64Floor s.cur.idx

section streaming
variable {input rest : List Int} {x : Int} {s : State}

theorem Streaming.length_le (h : Streaming input [] s) : input.length ≤ f64Floor s.cur.idx :=
  (List.drop_eq_nil_iff.1 h.rest_eq).trans h.ahead

theorem Streaming.getElem? (h : Streaming input (x :: rest) s) : input[s.cur.n]? = some x := by
  rw [← List.head?_drop, h.rest_eq, List.head?_cons]

theorem Streaming.skip (h : Streaming input (x :: rest) s) (hoff : f64Floor s.cur.idx ≠ s.cur.n) :
    Streaming input rest s.nextIndex where
  rates := h.rates
  rest_eq := by rw [State.nextIndex_cur, ← List.tail_drop, h.rest_eq, List.tail_cons]
  ratioReal := h.ratioReal
  ratioBound := h.ratioBound
  idxReal := h.idxReal
  ahead := Nat.lt_of_le_of_ne h.ahead hoff.symm

theorem Streaming.turn (h : Streaming input rest s) (hfloor : f64Floor s.cur.idx < 2 ^ 53) :
    Streaming input rest (srcTurn binary64 x s) :=
  have hreal := f64Real_add h.idxReal h.ratioReal hfloor h.ratioBound
  { rates := h.rates
    rest_eq := h.rest_eq
    ratioReal := h.ratioReal
    ratioBound := h.ratioBound
    idxReal := hreal
    ahead := h.ahead.trans (f64Floor_mono hreal (toNat_le_f64Add h.idxReal h.ratioReal)) }

/-- R94, at any point of the input: induction on the fuel of Resample, which covers the patterns above the cursor,
and on the Samples still to come. -/
theorem Streaming.agrees (hlength : input.length < 2 ^ 53) {fuel : Nat} (h : Streaming input rest s)
    (hfuel : 2 ^ 64 ≤ fuel + s.cur.idx.toNat) :
    Agrees binary64 (resampleLoop binary64 input s.cur.ratio fuel s.cur.idx) rest s := by
  induction fuel generalizing rest s with
  | zero => exact absurd s.cur.idx.isLt (by omega)
  | succ fuel ihFuel =>
    have hflt : binary64.flt s.cur.idx (binary64.ofNat input.length) = decide (f64Floor s.cur.idx < input.length) :=
      f64Less_ofNat h.idxReal hlength
    induction rest generalizing s with
    | nil =>
      rw [resampleLoop_of_end (hflt.trans (decide_eq_false (Nat.not_lt.2 h.length_le)))]
      exact agrees_nil
    | cons x rest ihRest =>
      by_cases hon : f64Floor s.cur.idx = s.cur.n
      case neg => exact (ihRest (h.skip hon) hfuel hflt).of_skipped h.rates hon
      case pos =>
        have hx : input[binary64.ffloor s.cur.idx]? = some x := by rw [binary64_ffloor, hon, h.getElem?]
        obtain ⟨hinside, -⟩ := List.getElem?_eq_some_iff.1 hx
        have hless := hflt.trans (decide_eq_true hinside)
        by_cases hfixed : binary64.fadd s.cur.idx s.cur.ratio = s.cur.idx
        case pos =>
          rw [resampleLoop_of_stalled hless hfixed]
          exact agrees_of_stalled h.rates hon hfixed
        case neg =>
          have hrises : s.cur.idx.toNat < (f64Add s.cur.idx s.cur.ratio).toNat :=
            Nat.lt_of_le_of_ne (toNat_le_f64Add h.idxReal h.ratioReal) (BitVec.toNat_ne_iff_ne.2 (Ne.symm hfixed))
          rw [resampleLoop_of_forwarded hless hfixed hx]
          refine (ihFuel (h.turn (hinside.trans hlength)) ?_).of_forwarded h.rates hon
          rw [srcTurn_idx, binary64_fadd]
          omega

end streaming

/-- What START leaves is the beginning of every input. -/
theorem streaming_of_start {s : State} (xs : List Int) (hrates : s.regs.srcRate ≠ s.regs.tgtRate)
    (htgt : s.regs.tgtRate ≠ 0) (hcur : s.cur = ⟨posZero, 0, srcRatio binary64 s.regs⟩) :
    Streaming xs xs s where
  rates := hrates
  rest_eq := by rw [hcur, List.drop_zero]
  ratioReal := by rw [hcur]; exact f64Real_srcRatio htgt
  ratioBound := by rw [hcur]; exact f64Scaled_srcRatio_le htgt
  idxReal := by rw [hcur]; exact f64Real_posZero
  ahead := by rw [hcur]; exact Nat.zero_le _

/-- Settles O38: under equal rates by induction on the Samples, else by the agreement at the start of the input. -/
theorem streamingResamplerIsBatchResampler : Obligations.StreamingResamplerIsBatchResampler := by
  intro s xs _ htgt hcur hlength
  have hn : s.cur.n = 0 := congrArg Cursor.n hcur
  by_cases hrates : s.regs.srcRate = s.regs.tgtRate
  case pos =>
    rw [resample, if_pos hrates]
    refine ⟨?_, nofun⟩
    rintro ys ⟨⟩
    obtain ⟨hregs, hstatus⟩ := forwardAll_frame xs s
    refine ⟨_, srcSteps_of_equal_rates binary64 xs s hrates, rfl, rfl, rfl, ?_, rfl, (if_pos hrates).symm, hregs,
      hstatus⟩
    rw [State.withCursor, hn, Nat.zero_add]
  case neg =>
    have hresample : resample binary64 xs s.regs = resampleLoop binary64 xs s.cur.ratio srcFuel s.cur.idx := by
      rw [resample, if_neg hrates, hcur]
    have hagrees := (streaming_of_start xs hrates htgt hcur).agrees hlength (fuel := srcFuel) (Nat.le_add_right _ _)
    rw [hresample]
    refine ⟨fun ys hys => ?_, fun hnone => SrcResult.exists_eq_hang (hagrees.hang hnone)⟩
    obtain ⟨hregs, hstatus⟩ := forwardAll_frame ys s
    refine ⟨_, hagrees.done ys hys, rfl, rfl, rfl, ?_, rfl, (if_neg hrates).symm, hregs, hstatus⟩
    rw [streamed, State.withCursor, hn, Nat.zero_add]

end Sys2Proof.Machine

/-! PROOFS. One step of ADM on integers (42_delta_encoder.md R100 to R104): both clamps fit their registers, so
what the registers read back is what the step computed. -/

namespace Sys2Proof.Machine

theorem toInt_ofInt_clamp_sample (v : Int) :
    (BitVec.ofInt 8 (clamp sampleMin sampleMax v)).toInt = clamp sampleMin sampleMax v := by
  obtain ⟨hlow, hhigh⟩ := clamp_mem sampleMin sampleMax v (by decide)
  have hmin : sampleMin = -128 := rfl
  have hmax : sampleMax = 127 := rfl
  exact BitVec.toInt_ofInt_eq_self (by decide) (by omega) (by omega)

theorem toNat_ofInt_clamp_strength (v : Int) :
    ((BitVec.ofInt 6 (clamp strengthMin strengthMax v)).toNat : Int) = clamp strengthMin strengthMax v := by
  obtain ⟨hlow, hhigh⟩ := clamp_mem strengthMin strengthMax v (by decide)
  have hmin : strengthMin = 0 := rfl
  have hmax : strengthMax = 63 := rfl
  rw [BitVec.toNat_ofInt]
  omega

section admStep
variable (e : EncoderState) (x : Int)

/-- Step 1 (R101). -/
theorem admStep_bit : (admStep e x).2 = decide (x > e.charge.toInt) := rfl

/-- Step 5 (R100). -/
theorem admStep_prev : (admStep e x).1.prev = (admStep e x).2 := rfl

/-- Step 2 (R102). -/
theorem toNat_admStep_strength : ((admStep e x).1.strength.toNat : Int) = max 0 (min 63
    (if (admStep e x).2 = e.prev then (e.strength.toNat : Int) + 1 else (e.strength.toNat : Int) - 1)) :=
  (toNat_ofInt_clamp_strength _).trans (clamp_eq_max_min _ _ _ (by decide))

/-- Steps 3 and 4 (R103, R104), from the new strength. -/
theorem toInt_admStep_charge : (admStep e x).1.charge.toInt = max (-128) (min 127
    (if (admStep e x).2 then e.charge.toInt + (4 * ((admStep e x).1.strength.toNat : Int) + 2)
      else e.charge.toInt - (4 * ((admStep e x).1.strength.toNat : Int) + 2))) := by
  have hstrength : ((admStep e x).1.strength.toNat : Int) = admStrength e (admStep e x).2 :=
    toNat_ofInt_clamp_strength _
  have hchange : 4 * ((admStep e x).1.strength.toNat : Int) + 2 = admChange (admStrength e (admStep e x).2) := by
    rw [hstrength, admChange, stepShift, stepBias]
    omega
  rw [hchange]
  exact (toInt_ofInt_clamp_sample _).trans (clamp_eq_max_min _ _ _ (by decide))

/-- A 1 raises charge by at least two, short of the upper bound (R103, R104). -/
theorem toInt_admStep_charge_of_one (hbit : (admStep e x).2 = true) :
    (admStep e x).1.charge.toInt = min 127 (e.charge.toInt + (4 * ((admStep e x).1.strength.toNat : Int) + 2)) := by
  have hlow := e.charge.le_toInt
  rw [toInt_admStep_charge, if_pos hbit]
  omega

/-- A 0 lowers charge by at least two, short of the lower bound (R103, R104). -/
theorem toInt_admStep_charge_of_zero (hbit : (admStep e x).2 = false) :
    (admStep e x).1.charge.toInt = max (-128) (e.charge.toInt - (4 * ((admStep e x).1.strength.toNat : Int) + 2)) := by
  have hhigh := e.charge.toInt_lt
  rw [toInt_admStep_charge, if_neg (by rw [hbit]; decide)]
  omega

/-- `strength` never jumps (R102). -/
theorem admStep_strength_moves :
    (admStep e x).1.strength.toNat = e.strength.toNat + 1 ∨
    (admStep e x).1.strength.toNat + 1 = e.strength.toNat ∨
    (admStep e x).1.strength = e.strength ∧ (e.strength.toNat = 0 ∨ e.strength.toNat = 63) := by
  have hnew := toNat_admStep_strength e x
  have hold := e.strength.isLt
  rw [← BitVec.toNat_inj]
  split at hnew <;> omega

end admStep

/-- Settles O16: the equation of each step. -/
theorem admStepFollowsItsSixSteps : Obligations.AdmStepFollowsItsSixSteps := fun e x =>
  ⟨admStep_bit e x, toNat_admStep_strength e x, toInt_admStep_charge e x, admStep_prev e x⟩

/-- Settles O17: by the bit, since the change is never 0. -/
theorem encoderMovesWithTheBit : Obligations.EncoderMovesWithTheBit := by
  intro e x
  have hlow := e.charge.le_toInt
  have hhigh := e.charge.toInt_lt
  rw [← BitVec.toInt_inj]
  cases hbit : (admStep e x).2 with
  | true =>
    have hcharge := toInt_admStep_charge_of_one e x hbit
    refine ⟨fun _ => ?_, nofun, ?_, admStep_strength_moves e x⟩
    · omega
    · simp only [true_and, Bool.true_eq_false, false_and, or_false]
      omega
  | false =>
    have hcharge := toInt_admStep_charge_of_zero e x hbit
    refine ⟨nofun, fun _ => ?_, ?_, admStep_strength_moves e x⟩
    · omega
    · simp only [true_and, Bool.false_eq_true, false_and, false_or]
      omega

end Sys2Proof.Machine

/-! PROOFS. ADM and Pack over sequences (42_delta_encoder.md R106; 43_bit_packer.md R114): both split where the
input does, Pack at whole bytes, so a period of the input is a period of the output. -/

namespace Sys2Proof.Machine

theorem admRun_append (e : EncoderState) (xs ys : List Int) :
    admRun e (xs ++ ys) =
      ((admRun (admRun e xs).1 ys).1, (admRun e xs).2 ++ (admRun (admRun e xs).1 ys).2) := by
  induction xs generalizing e with
  | nil => rfl
  | cons x xs ih => simp only [List.cons_append, admRun, ih]

/-- An input that leads back to where it began, repeated. -/
theorem admRun_flatten_replicate {e : EncoderState} {xs : List Int} {bits : List Bool}
    (hback : admRun e xs = (e, bits)) (k : Nat) :
    admRun e (List.replicate k xs).flatten = (e, (List.replicate k bits).flatten) := by
  induction k with
  | zero => rfl
  | succ k ih =>
    simp only [List.replicate_succ, List.flatten_cons]
    rw [admRun_append, hback, ih]

theorem byteOfBits_congr {f g : Nat → Bool} (h : ∀ i, i < 8 → f i = g i) : byteOfBits f = byteOfBits g := by
  have hplaces : ((List.range 8).map fun i => if f i then 2 ^ i else 0) =
      (List.range 8).map fun i => if g i then 2 ^ i else 0 :=
    List.map_congr_left fun i hi => by rw [h i (List.mem_range.1 hi)]
  rw [byteOfBits, byteOfBits, hplaces]

theorem pack_nil : pack [] = [] := by decide

theorem pack_append {xs : List Bool} (hbytes : 8 ∣ xs.length) (ys : List Bool) :
    pack (xs ++ ys) = pack xs ++ pack ys := by
  obtain ⟨m, hm⟩ := hbytes
  have hbefore : (xs.length + 7) / 8 = m := by omega
  have hboth : ((xs ++ ys).length + 7) / 8 = m + (ys.length + 7) / 8 := by
    rw [List.length_append]
    omega
  have hleft (j i : Nat) (hj : j < m) (hi : i < 8) :
      (xs ++ ys).getD (8 * j + i) false = xs.getD (8 * j + i) false :=
    List.getD_append _ _ _ _ (by omega)
  have hright (j i : Nat) : (xs ++ ys).getD (8 * (m + j) + i) false = ys.getD (8 * j + i) false := by
    have hindex : 8 * (m + j) + i - xs.length = 8 * j + i := by omega
    rw [List.getD_append_right _ _ _ _ (by omega), hindex]
  rw [pack, pack, pack, hboth, hbefore, List.range_add, List.map_append, List.map_map]
  exact congrArg₂ (· ++ ·)
    (List.map_congr_left fun j hj => byteOfBits_congr fun i hi => hleft j i (List.mem_range.1 hj) hi)
    (List.map_congr_left fun j _ => byteOfBits_congr fun i _ => hright j i)

theorem pack_flatten_replicate {bits : List Bool} (hbytes : 8 ∣ bits.length) (k : Nat) :
    pack (List.replicate k bits).flatten = (List.replicate k (pack bits)).flatten := by
  induction k with
  | zero => exact pack_nil
  | succ k ih =>
    simp only [List.replicate_succ, List.flatten_cons]
    rw [pack_append hbytes, ih]

end Sys2Proof.Machine

/-! PROOFS. Silence from the initial state (42_delta_encoder.md R107). -/

namespace Sys2Proof.Machine

/-- The trace of R107, line by line. -/
theorem admStep_silence :
    admStep EncoderState.initial 0 = (⟨BitVec.ofInt 8 (-6), 1, false⟩, false) ∧
    admStep ⟨BitVec.ofInt 8 (-6), 1, false⟩ 0 = (⟨BitVec.ofInt 8 (-4), 0, true⟩, true) ∧
    admStep ⟨BitVec.ofInt 8 (-4), 0, true⟩ 0 = (⟨2, 1, true⟩, true) ∧
    admStep ⟨2, 1, true⟩ 0 = (EncoderState.initial, false) := by
  decide

/-- The four steps lead back to the initial state. -/
theorem admRun_silence_period :
    admRun EncoderState.initial (List.replicate 4 0) = (EncoderState.initial, [false, true, true, false]) := by
  obtain ⟨hfirst, hsecond, hthird, hfourth⟩ := admStep_silence
  simp only [List.replicate_succ, List.replicate_zero, admRun, hfirst, hsecond, hthird, hfourth]

theorem admRun_silence (k : Nat) : admRun EncoderState.initial (List.replicate (4 * k) 0) =
    (EncoderState.initial, (List.replicate k [false, true, true, false]).flatten) := by
  rw [Nat.mul_comm, ← List.flatten_replicate_replicate]
  exact admRun_flatten_replicate admRun_silence_period k

/-- Two periods fill one byte. -/
theorem pack_admRun_silence (k : Nat) :
    pack (admRun EncoderState.initial (List.replicate (8 * k) 0)).2 = List.replicate k (0x66 : Byte) := by
  have hbyte : pack (List.replicate 2 [false, true, true, false]).flatten = [0x66] := by decide
  rw [Nat.mul_comm, ← List.flatten_replicate_replicate, admRun_flatten_replicate (admRun_silence 2),
    pack_flatten_replicate (by decide), hbyte, List.flatten_replicate_singleton]

/-- Settles O18: a period of four samples, two of them to a byte. -/
theorem silenceRepeatsEveryFourSamples : Obligations.SilenceRepeatsEveryFourSamples :=
  ⟨admRun_silence, pack_admRun_silence, admStep_silence⟩

end Sys2Proof.Machine

/-! PROOFS. The operations of BP bit by bit (43_bit_packer.md R110 to R112): where a push writes, and the zeros
above. -/

namespace Sys2Proof.Machine

/-- R111 for a bit buffer: the bits of `acc` at `bitpos` and above are 0. -/
def BitStream.Padded (b : BitStream) : Prop :=
  ∀ i : Nat, b.bitpos.toNat ≤ i → b.acc.getLsbD i = false

section buffer
variable {b : BitStream}

/-- R111 in bits is R111 as a bound on the number, which `Inv` keeps. -/
theorem BitStream.padded_iff : b.Padded ↔ b.acc.toNat < 2 ^ b.bitpos.toNat := by
  constructor
  · intro h
    exact Nat.lt_pow_two_of_testBit _ h
  · intro h i hi
    exact Nat.testBit_lt_two_pow (h.trans_le (Nat.pow_le_pow_right two_pos hi))

theorem BitStream.padded_empty : BitStream.empty.Padded := by
  intro i _
  exact BitVec.getLsbD_zero

/-- A push writes its bit at `bitpos` and no other. -/
theorem getLsbD_placeBit (b : BitStream) (bit : Bool) (i : Nat) :
    (placeBit b bit).getLsbD i = (b.acc.getLsbD i || (bit && decide (i = b.bitpos.toNat))) := by
  have hpos : b.bitpos.toNat < 8 := b.bitpos.isLt
  cases bit with
  | false => simp [placeBit]
  | true =>
    have hone : (1#8 <<< b.bitpos.toNat).getLsbD i = decide (i = b.bitpos.toNat) := by
      simp only [BitVec.getLsbD_shiftLeft, BitVec.getLsbD_one]
      grind
    rw [placeBit, if_pos rfl, BitVec.getLsbD_or, hone, Bool.true_and]

theorem toNat_bitpos_add_one (h : b.bitpos ≠ 7) : (b.bitpos + 1).toNat = b.bitpos.toNat + 1 := by
  bv_omega

theorem BitStream.Padded.push (h : b.Padded) (bit : Bool) : (bpPush b bit).1.Padded := by
  obtain ⟨-, hpush⟩ | ⟨hroom, hpush⟩ := bpPush_cases b bit <;> rw [hpush]
  · exact padded_empty
  · intro i (hi : (b.bitpos + 1).toNat ≤ i)
    rw [toNat_bitpos_add_one hroom] at hi
    have hne : i ≠ b.bitpos.toNat := by omega
    rw [getLsbD_placeBit, h i (by omega), decide_eq_false hne, Bool.and_false, Bool.or_false]

theorem BitStream.Padded.flush (h : b.Padded) : (bpFlush b).1.Padded := by
  obtain ⟨-, hflush⟩ | ⟨-, hflush⟩ := bpFlush_cases b <;> rw [hflush]
  · exact padded_empty
  · exact h

end buffer

/-- Settles O21, operation by operation. -/
theorem paddingBitsStayZero : Obligations.PaddingBitsStayZero := fun _ bit hpadded =>
  ⟨BitStream.Padded.push hpadded bit, BitStream.Padded.flush hpadded⟩

end Sys2Proof.Machine

/-! PROOFS. The bytes of Pack bit by bit (30_encoding.md R68; 43_bit_packer.md R114), and Unpack. -/

namespace Sys2Proof.Machine

/-- A number written as a sum of places is the number with those bits. -/
theorem sum_places_eq_ofBits (f : Nat → Bool) (n : Nat) :
    ((List.range n).map fun i => if f i then 2 ^ i else 0).sum = Nat.ofBits fun i : Fin n => f i := by
  induction n generalizing f with
  | zero => rfl
  | succ n ih =>
    have hdouble : (fun i => if f (i + 1) then 2 ^ (i + 1) else 0) = fun i => 2 * if f (i + 1) then 2 ^ i else 0 := by
      funext i
      split <;> simp [Nat.pow_succ, Nat.mul_comm]
    rw [List.range_succ_eq_map, List.map_cons, List.map_map, List.sum_cons, Nat.ofBits_succ]
    simp only [Function.comp_def, Nat.succ_eq_add_one, hdouble, List.sum_map_mul_left]
    rw [ih fun i => f (i + 1), Nat.add_comm]
    cases h : f 0 <;> simp [h]

theorem byteOfBits_eq_ofBits (f : Nat → Bool) : byteOfBits f = BitVec.ofNat 8 (Nat.ofBits fun i : Fin 8 => f i) :=
  congrArg _ (sum_places_eq_ofBits f 8)

theorem getLsbD_byteOfBits (f : Nat → Bool) {i : Nat} (hi : i < 8) : (byteOfBits f).getLsbD i = f i := by
  rw [byteOfBits_eq_ofBits, BitVec.getLsbD_ofNat, Nat.testBit_ofBits_lt _ i hi, decide_eq_true hi, Bool.true_and]

section pack
variable (bits : List Bool)

theorem length_pack : (pack bits).length = (bits.length + 7) / 8 := by
  rw [pack, List.length_map, List.length_range]

theorem pack_getElem? {j : Nat} (hj : j < (bits.length + 7) / 8) :
    (pack bits)[j]? = some (byteOfBits fun i => bits.getD (8 * j + i) false) := by
  rw [pack, List.getElem?_map, List.getElem?_range hj, Option.map_some]

/-- One to eight bits make one byte. -/
theorem pack_of_length_le (hpos : 0 < bits.length) (hle : bits.length ≤ 8) :
    pack bits = [byteOfBits fun i => bits.getD i false] := by
  have hone : (bits.length + 7) / 8 = 1 := by omega
  simp [pack, hone]

/-- Bytes taken from consecutive places of a bit sequence, read bit by bit, give the sequence back. -/
theorem flatMap_range_bytes (g : Nat → Bool) (m : Nat) :
    ((List.range m).flatMap fun j => (List.range 8).map fun i => g (8 * j + i)) = (List.range (8 * m)).map g := by
  induction m with
  | zero => rfl
  | succ m ih =>
    rw [List.range_succ (n := m), List.flatMap_append, ih, Nat.mul_succ, List.range_add, List.map_append,
      List.map_map]
    simp [Function.comp_def]

theorem unpack_pack :
    unpack (pack bits) = (List.range (8 * ((bits.length + 7) / 8))).map fun k => bits.getD k false := by
  rw [unpack, pack, List.flatMap_map, ← flatMap_range_bytes]
  congr 1
  funext j
  exact List.map_congr_left fun i hi => getLsbD_byteOfBits _ (List.mem_range.1 hi)

theorem take_unpack_pack : (unpack (pack bits)).take bits.length = bits := by
  rw [unpack_pack, ← List.map_take, List.take_range, Nat.min_eq_left (by omega)]
  exact List.ext_getElem (by simp) fun i _ hi => by simp [hi]

end pack

end Sys2Proof.Machine

/-! PROOFS. The pushes of a bit list (43_bit_packer.md R110 to R114): the buffer holds the bits of the byte begun. -/

namespace Sys2Proof.Machine

/-- The bits `pending` have been pushed since the last whole byte. -/
structure BitStream.Holds (b : BitStream) (pending : List Bool) : Prop where
  length : pending.length = b.bitpos.toNat
  acc : ∀ i : Nat, b.acc.getLsbD i = pending.getD i false

section holds
variable {b : BitStream} {pending : List Bool}

theorem BitStream.holds_empty : BitStream.empty.Holds [] where
  length := rfl
  acc i := by simp [BitStream.empty]

/-- A byte whose bits are those of at most eight pending bits is their Pack. -/
theorem pack_eq_singleton (hpos : 0 < pending.length) (hle : pending.length ≤ 8) {byte : Byte}
    (hbyte : ∀ i : Nat, byte.getLsbD i = pending.getD i false) : pack pending = [byte] := by
  rw [pack_of_length_le pending hpos hle]
  refine congrArg (fun a => [a]) (BitVec.eq_of_getLsbD_eq fun i hi => ?_)
  rw [getLsbD_byteOfBits _ hi, hbyte]

theorem getD_concat (xs : List Bool) (x : Bool) (i : Nat) :
    (xs ++ [x]).getD i false = (xs.getD i false || (x && decide (i = xs.length))) := by
  grind

theorem BitStream.Holds.getLsbD_placeBit (h : b.Holds pending) (bit : Bool) (i : Nat) :
    (placeBit b bit).getLsbD i = (pending ++ [bit]).getD i false := by
  rw [Machine.getLsbD_placeBit, getD_concat, h.acc, h.length]

theorem BitStream.Holds.length_concat_last (h : b.Holds pending) (hlast : b.bitpos = 7) (bit : Bool) :
    (pending ++ [bit]).length = 8 := by
  rw [List.length_append, h.length, hlast]
  rfl

/-- The eighth bit: the byte is pushed, and the buffer is empty (R110). -/
theorem BitStream.Holds.push_last (h : b.Holds pending) (hlast : b.bitpos = 7) (bit : Bool) :
    bpPush b bit = (BitStream.empty, pack (pending ++ [bit])) := by
  have hlength := h.length_concat_last hlast bit
  rw [bpPush, if_pos hlast, pack_eq_singleton (by omega) (by omega) (h.getLsbD_placeBit bit)]

/-- Every other bit: it joins the pending ones (R110). -/
theorem BitStream.Holds.push_room (h : b.Holds pending) (hroom : b.bitpos ≠ 7) (bit : Bool) :
    (bpPush b bit).2 = [] ∧ (bpPush b bit).1.Holds (pending ++ [bit]) := by
  rw [bpPush, if_neg hroom]
  refine ⟨rfl, ?_, h.getLsbD_placeBit bit⟩
  rw [List.length_append, h.length, toNat_bitpos_add_one hroom, List.length_singleton]

theorem BitStream.Holds.flush (h : b.Holds pending) : bpFlush b = (BitStream.empty, pack pending) := by
  have hlength := h.length
  obtain ⟨hne, hflush⟩ | ⟨hzero, hflush⟩ := bpFlush_cases b <;> rw [hflush]
  · have hpos : 0 < b.bitpos.toNat := by bv_omega
    rw [pack_eq_singleton (by omega) (by omega) h.acc]
  · rw [hzero] at hlength
    obtain rfl : pending = [] := List.length_eq_zero_iff.1 hlength
    have hacc : b.acc = 0 := BitVec.eq_of_getLsbD_eq fun i _ => by simp [h.acc]
    rw [pack_nil, BitStream.empty, ← hacc, ← hzero]

/-- The pushes and the flush from a buffer that holds bits: Pack of those bits and the pushed ones. -/
theorem BitStream.Holds.pushAll_flush (h : b.Holds pending) (bits : List Bool) :
    (bpFlush (bpPushAll b bits).1).1 = BitStream.empty ∧
      (bpPushAll b bits).2 ++ (bpFlush (bpPushAll b bits).1).2 = pack (pending ++ bits) := by
  induction bits generalizing b pending with
  | nil => simp [bpPushAll, h.flush]
  | cons x xs ih =>
    rw [List.append_cons]
    by_cases hlast : b.bitpos = 7
    case pos =>
      obtain ⟨hempty, hbytes⟩ := ih holds_empty
      have hwhole : 8 ∣ (pending ++ [x]).length := by rw [h.length_concat_last hlast]
      rw [bpPushAll, h.push_last hlast, pack_append hwhole, List.append_assoc]
      exact ⟨hempty, congrArg _ hbytes⟩
    case neg =>
      obtain ⟨hnone, hholds⟩ := h.push_room hlast x
      rw [bpPushAll, hnone]
      exact ih hholds

end holds

/-- Settles O20: the empty buffer holds no bits, so only the pushed ones are packed. -/
theorem streamedPackingIsPack : Obligations.StreamedPackingIsPack := fun bits =>
  have ⟨hempty, hbytes⟩ := BitStream.holds_empty.pushAll_flush bits
  ⟨hbytes, hempty, take_unpack_pack bits⟩

/-- Each push moves `bitpos` on by one and pushes a byte where it wraps. -/
theorem bpPush_count (b : BitStream) (bit : Bool) :
    8 * (bpPush b bit).2.length + (bpPush b bit).1.bitpos.toNat = b.bitpos.toNat + 1 := by
  obtain ⟨hlast, hpush⟩ | ⟨hroom, hpush⟩ := bpPush_cases b bit <;> rw [hpush]
  · rw [hlast]
    rfl
  · exact (Nat.zero_add _).trans (toNat_bitpos_add_one hroom)

theorem bpPushAll_count (b : BitStream) (bits : List Bool) :
    8 * (bpPushAll b bits).2.length + (bpPushAll b bits).1.bitpos.toNat = b.bitpos.toNat + bits.length := by
  induction bits generalizing b with
  | nil => simp [bpPushAll]
  | cons x xs ih =>
    have hone := bpPush_count b x
    have hrest := ih (bpPush b x).1
    simp only [bpPushAll, List.length_append, List.length_cons]
    omega

/-- Settles O19: the bytes are those of Pack, whose bits are the pushed ones by construction. -/
theorem pushedBitsComeBack : Obligations.PushedBitsComeBack := by
  intro bits
  have hcount := bpPushAll_count BitStream.empty bits
  have hstart : BitStream.empty.bitpos.toNat = 0 := rfl
  obtain ⟨-, hbytes⟩ := BitStream.holds_empty.pushAll_flush bits
  rw [hbytes, List.nil_append]
  refine ⟨by omega, length_pack bits, fun k hk => ?_⟩
  refine ⟨_, pack_getElem? bits (j := k / 8) (by omega), ?_⟩
  rw [getLsbD_byteOfBits _ (Nat.mod_lt k (by omega)), Nat.div_add_mod]

end Sys2Proof.Machine

/-! PROOFS. The invariant of the machine from one command to the next: a cursor that is added to only while
it stands on the index stays finite, and it is at or ahead of the index (41_resampler.md R93, R170). -/

namespace Sys2Proof.Machine

section invariant
variable {s t : State} {x : Int}

/-- The invariant reads the bit buffer, the cursor, the configuration and the mode alone. -/
theorem Inv.of_frame (h : Inv s) (hbits : t.bits = s.bits) (hcur : t.cur = s.cur) (hregs : t.regs = s.regs)
    (hmode : t.status.mode = s.status.mode) : Inv t where
  padding := hbits ▸ h.padding
  lengthBound := hcur ▸ h.lengthBound
  cursorReal := hcur ▸ h.cursorReal
  ratioReal := hcur ▸ h.ratioReal
  rates := by rw [hmode, hregs]; exact h.rates
  ratio := by rw [hmode, hcur, hregs]; exact h.ratio
  ahead := by rw [hmode, hcur, hregs]; exact h.ahead

/-- In IDLE nothing is asked of the configuration or of where the cursor stands. -/
theorem Inv.of_idle (h : Inv s) (hpadded : t.bits.Padded) (hcur : t.cur = s.cur)
    (hmode : t.status.mode = .idle) : Inv t where
  padding := BitStream.padded_iff.1 hpadded
  lengthBound := hcur ▸ h.lengthBound
  cursorReal := hcur ▸ h.cursorReal
  ratioReal := hcur ▸ h.ratioReal
  rates := by simp [hmode]
  ratio := by simp [hmode]
  ahead := by simp [hmode]

theorem Inv.padded (h : Inv s) : s.bits.Padded := BitStream.padded_iff.2 h.padding

theorem Inv.refuse (h : Inv s) (e : ErrCode) : Inv (refuse e s) :=
  h.of_frame rfl rfl rfl (by simp)

theorem Inv.flagWidth (h : Inv s) : Inv (flagWidth s) := by
  obtain ⟨-, hbits, hcur, hregs, hmode, -⟩ := flagWidth_frame s
  exact h.of_frame hbits hcur hregs hmode

theorem runLimit_pos : 0 < runLimit := by decide

theorem beginRun_cur (c : CursorNum) (s : State) :
    (beginRun c s).cur = ⟨posZero, 0, srcRatio c s.regs⟩ := rfl

theorem beginRun_regs (c : CursorNum) (s : State) : (beginRun c s).regs = s.regs := rfl

theorem Inv.beginRun (hsrc : s.regs.srcRate ≠ 0) (htgt : s.regs.tgtRate ≠ 0) : Inv (beginRun binary64 s) where
  padding := BitStream.padded_iff.1 BitStream.padded_empty
  lengthBound := by rw [beginRun_cur]; exact runLimit_pos
  cursorReal := f64Real_posZero
  ratioReal := f64Real_srcRatio htgt
  rates _ := ⟨hsrc, htgt⟩
  ratio _ := by rw [beginRun_cur, beginRun_regs]
  ahead _ _ := by rw [beginRun_cur]; exact Nat.zero_le _

theorem Inv.finishRun (h : Inv s) : Inv (finishRun s) :=
  h.of_idle h.padded.flush rfl rfl

/-- Forward moves the encoder, the packer and OUT. -/
theorem Inv.forward (h : Inv s) (x : Int) : Inv (forward x s) :=
  { h with padding := BitStream.padded_iff.1 (h.padded.push _) }

/-- One turn with the cursor on the index: the cursor does not fall, and stays finite below the bound of R170. -/
theorem Inv.srcTurn (h : Inv s) (x : Int) (hmode : s.status.mode = .run) (hon : f64Floor s.cur.idx = s.cur.n) :
    Inv (srcTurn binary64 x s) := by
  obtain ⟨-, htgt⟩ := h.rates hmode
  have hratio : f64Scaled s.cur.ratio ≤ 2 ^ 32 * f64Unit := h.ratio hmode ▸ f64Scaled_srcRatio_le htgt
  have hreal : f64Real (f64Add s.cur.idx s.cur.ratio) = true :=
    f64Real_add h.cursorReal h.ratioReal (hon ▸ h.lengthBound) hratio
  have hrises : f64Floor s.cur.idx ≤ f64Floor (f64Add s.cur.idx s.cur.ratio) :=
    f64Floor_mono hreal (toNat_le_f64Add h.cursorReal h.ratioReal)
  exact
    { h.forward x with
      cursorReal := hreal
      ahead := fun _ hrates => (h.ahead hmode hrates).trans hrises }

theorem Inv.srcTurns (h : Inv s) (x : Int) (hmode : s.status.mode = .run) {k : Nat}
    (hon : ∀ j, j < k → f64Floor (srcTurns binary64 x j s).cur.idx = s.cur.n) : Inv (srcTurns binary64 x k s) := by
  induction k generalizing s with
  | zero => exact h
  | succ k ih =>
    exact ih (h.srcTurn x hmode (hon 0 k.succ_pos)) hmode fun j hj => hon (j + 1) (Nat.succ_lt_succ hj)

/-- The index may advance where the cursor is off it, or where the rates are equal and the cursor is not asked. -/
theorem Inv.nextIndex (h : Inv s) (hn : s.cur.n + 1 < runLimit)
    (hoff : s.regs.srcRate ≠ s.regs.tgtRate → f64Floor s.cur.idx ≠ s.cur.n) : Inv s.nextIndex :=
  { h with
    lengthBound := hn
    ahead := fun hmode hrates => Nat.lt_of_le_of_ne (h.ahead hmode hrates) (hoff hrates).symm }

/-- SRC.STEP in a run (R93). -/
theorem Inv.srcStep (h : Inv s) (hmode : s.status.mode = .run) (hn : s.cur.n + 1 < runLimit)
    (hdone : srcStep binary64 x s = .done t) : Inv t := by
  obtain ⟨hequal, rfl⟩ | ⟨-, k, rfl, hoff, hon⟩ := srcStep_done binary64 x s t hdone
  · exact (h.forward x).nextIndex hn (absurd hequal)
  · obtain ⟨hindex, -⟩ := srcTurns_frame binary64 x k s
    exact (h.srcTurns x hmode hon).nextIndex (hindex.symm ▸ hn) fun _ => hindex.symm ▸ hoff

/-- Every completed command keeps the invariant, by its effect. -/
theorem Inv.of_execEffect {i : Instr} (h : Inv s) (heffect : ExecEffect i s t) : Inv t := by
  cases heffect with
  | refused e => exact h.refuse e
  | rst => exact invariantHoldsAtReset.of_frame rfl rfl rfl rfl
  | cfg hmode => exact h.of_idle h.padded rfl hmode
  | rd => exact h.of_frame rfl rfl rfl rfl
  | start _ hsrc htgt => exact Inv.beginRun hsrc htgt
  | sample hmode hn hstep => exact h.srcStep hmode hn hstep
  | frame hmode _ _ hn hstep =>
    obtain ⟨-, -, hcur, -, hflag, -⟩ := flagWidth_frame s
    exact h.flagWidth.srcStep (hflag.trans hmode) (hcur.symm ▸ hn) hstep
  | endRun => exact h.finishRun

theorem step_of_cmd_eq_nil (hcmd : s.chan.cmd = []) : step s = .next s := by
  simp [step, State.fetch, hcmd]

theorem Inv.execCommand {c : Command} (h : Inv s) (hnext : execCommand c s = .next t) : Inv t := by
  cases hdecode : decode c with
  | ok i =>
    rw [Machine.execCommand, hdecode] at hnext
    exact h.of_execEffect (exec_next_effect i s t hnext)
  | reserved why =>
    cases (execCommand_of_decode_eq_reserved hdecode s).symm.trans hnext
    exact h.refuse .op

end invariant

/-- Settles O55: the step takes a command off CMD, which the invariant does not read, and executes it. -/
theorem stepKeepsTheInvariant : Obligations.StepKeepsTheInvariant := by
  intro s t h hstep
  cases hcmd : s.chan.cmd with
  | nil =>
    cases (step_of_cmd_eq_nil hcmd).symm.trans hstep
    exact h
  | cons c rest =>
    rw [step_of_cmd_eq_cons hcmd] at hstep
    have htaken : Inv (s.setCommands rest) := h.of_frame rfl rfl rfl rfl
    exact htaken.execCommand hstep

end Sys2Proof.Machine

/-! PROOFS. The step runs the decoded command (44_commands.md R120). -/

namespace Sys2Proof.Machine

theorem execCommand_of_decode_eq_ok {c : Command} {i : Instr} (h : decode c = .ok i) (s : State) :
    execCommand c s = exec i s := by
  rw [execCommand, h]

theorem decode_eq_ok_of_decodeTableWord {nbits w : Nat} {i : Instr} (h : decodeTableWord nbits w = some i) :
    decode (commandOfBits nbits w) = .ok i := by
  unfold decodeTableWord at h
  split at h
  case h_1 hdecode => rw [hdecode, Option.some.inj h]
  case h_2 => cases h

/-- A command issued runs in the next step, at the state it was issued to. -/
theorem step_issue (s : State) (c : Command) : step (s.issue c) = execCommand c s := by
  rw [step, State.fetch_issue]

/-- Settles O7: the step takes the command off CMD, or finds none there. -/
theorem stepRunsTheDecodedCommand : Obligations.StepRunsTheDecodedCommand := by
  refine ⟨fun s c rest i hcmd hdecode => ?_, fun s hcmd => step_of_cmd_eq_nil hcmd, fun s w i hword => ?_⟩
  · rw [step_of_cmd_eq_cons hcmd, execCommand_of_decode_eq_ok hdecode]
  · rw [State.withFetchWord, step_issue,
      execCommand_of_decode_eq_ok (decode_eq_ok_of_decodeTableWord hword)]

end Sys2Proof.Machine

/-! PROOFS. CFG (44_commands.md R123): what the registers read after an accepted write. -/

namespace Sys2Proof.Machine

section cfg
variable {a b : RegAddr} {v : Word} {s : State} {r : ConfigRegs}

theorem exec_cfg_of_run (a : RegAddr) (v : Word) (hmode : s.status.mode = .run) :
    exec (.cfg a v) s = .next (refuse .mode s) := by
  change execCfg a v s = _
  rw [execCfg, if_pos hmode, refused]

theorem exec_cfg_of_reserved (hmode : s.status.mode = .idle) (ha : 3 < a.toNat) :
    exec (.cfg a v) s = .next (refuse .addr s) := by
  change execCfg a v s = _
  rw [execCfg, if_neg (by simp [hmode]), (writeReg_eq_none_iff a v s.regs).2 ha, refused]

theorem exec_cfg_of_write (hmode : s.status.mode = .idle) (hwrite : writeReg a v s.regs = some r) :
    exec (.cfg a v) s =
      if (a.toNat = 2 ∨ a.toNat = 3) ∧ 255 < v.toNat then .next (refuse .cfg s) else .next { s with regs := r } := by
  change execCfg a v s = _
  rw [execCfg, if_neg (by simp [hmode]), hwrite]
  simp only [isByteReg, refused, ← Bool.decide_and, decide_eq_true_eq, gt_iff_lt]

theorem exists_writeReg_eq_some (v : Word) (r : ConfigRegs) (ha : a.toNat ≤ 3) : ∃ r', writeReg a v r = some r' :=
  Option.ne_none_iff_exists'.1 fun hnone => Nat.not_lt.2 ha ((writeReg_eq_none_iff a v r).1 hnone)

/-- A word that fits an 8-bit register comes back from it. -/
theorem setWidth_setWidth_of_le (hv : v.toNat ≤ 255) : (v.setWidth 8).setWidth 32 = v := by
  apply BitVec.eq_of_toNat_eq
  simp only [BitVec.toNat_setWidth]
  omega

theorem readReg_writeReg_same (hwrite : writeReg a v s.regs = some r)
    (hfits : a.toNat = 2 ∨ a.toNat = 3 → v.toNat ≤ 255) : readReg a { s with regs := r } = some v := by
  obtain ⟨ha, rfl⟩ | ⟨ha, rfl⟩ | ⟨ha, rfl⟩ | ⟨ha, rfl⟩ := writeReg_cases a v s.regs r hwrite
  · simp [readReg, ha]
  · simp [readReg, ha]
  · simp only [readReg, ha, setWidth_setWidth_of_le (hfits (.inl ha))]
  · simp only [readReg, ha, setWidth_setWidth_of_le (hfits (.inr ha))]

theorem readReg_writeReg_of_ne (hwrite : writeReg a v s.regs = some r) (hne : b ≠ a) :
    readReg b { s with regs := r } = readReg b s := by
  have hb := BitVec.toNat_ne_iff_ne.2 hne
  unfold readReg
  obtain ⟨ha, rfl⟩ | ⟨ha, rfl⟩ | ⟨ha, rfl⟩ | ⟨ha, rfl⟩ := writeReg_cases a v s.regs r hwrite <;>
    split <;> simp_all only [ne_eq, not_true_eq_false]

end cfg

/-- Settles O11: the refusals in their order, then the reads after the write. -/
theorem cfgFollowsItsRule : Obligations.CfgFollowsItsRule := by
  intro s a v
  refine ⟨exec_cfg_of_run a v, exec_cfg_of_reserved, fun hmode hbyte hlarge => ?_, fun hmode haccepted => ?_⟩
  · obtain ⟨r, hwrite⟩ := exists_writeReg_eq_some v s.regs (a := a) (by omega)
    rw [exec_cfg_of_write hmode hwrite, if_pos ⟨hbyte, hlarge⟩]
  · obtain ⟨r, hwrite⟩ := exists_writeReg_eq_some v s.regs (a := a) (by omega)
    refine ⟨r, ?_, readReg_writeReg_same hwrite (by omega), fun b hne => readReg_writeReg_of_ne hwrite hne⟩
    rw [exec_cfg_of_write hmode hwrite, if_neg (by omega)]

end Sys2Proof.Machine

/-! PROOFS. RD (44_commands.md R125; 10_state.md R20, R26). -/

namespace Sys2Proof.Machine

/-- The fields of STATUS do not overlap, so the word is their sum (R26). -/
theorem Status.toNat_word (f : Status) :
    f.word.toNat = modeNumber f.mode + 2 * f.wUnsup.toNat + 16 * errNumber f.err := by
  obtain ⟨mode, wUnsup, err⟩ := f
  cases mode <;> cases wUnsup <;> rcases err with _ | (_ | _ | _ | _ | _) <;> rfl

section rd
variable {a : RegAddr} {v : Word} {s : State}

/-- The word read is that of the table of R20: each field is widened, CHARGE with its sign. -/
theorem registerWord_of_readReg (h : readReg a s = some v) : RegisterWord a v s := by
  unfold readReg at h
  split at h <;> cases h
  case h_1 ha | h_2 ha => simp only [RegisterWord, ha]
  case h_3 ha | h_4 ha | h_7 ha | h_9 ha | h_10 ha =>
    simp only [RegisterWord, ha]
    exact BitVec.toNat_setWidth_of_le (by decide)
  case h_5 ha =>
    simp only [RegisterWord, ha]
    exact Status.toNat_word s.status
  case h_6 ha =>
    simp only [RegisterWord, ha]
    exact BitVec.toInt_signExtend_of_le (by decide)
  case h_8 ha =>
    simp only [RegisterWord, ha]
    cases s.enc.prev <;> rfl

theorem exec_rd_of_reserved (ha : 9 < a.toNat) : exec (.rd a) s = .next (refuse .addr s) := by
  have hnone : readReg a s = none := by
    rw [← Option.not_isSome_iff_eq_none, readReg_isSome_iff, decide_eq_true_iff]
    omega
  change execRd a s = _
  rw [execRd, hnone, refused]

theorem exec_rd_of_legal (s : State) (ha : a.toNat ≤ 9) :
    ∃ v, RegisterWord a v s ∧ exec (.rd a) s = .next (s.respond v) := by
  obtain ⟨v, hread⟩ := Option.isSome_iff_exists.1 ((readReg_isSome_iff a s).trans (decide_eq_true ha))
  refine ⟨v, registerWord_of_readReg hread, ?_⟩
  change execRd a s = _
  rw [execRd, hread]

end rd

/-- Settles O12: an address of the table of R20 reads its word, another one is reserved. -/
theorem rdDeliversTheRegisterWord : Obligations.RdDeliversTheRegisterWord :=
  fun s _ => ⟨exec_rd_of_reserved, exec_rd_of_legal s⟩

end Sys2Proof.Machine

/-! PROOFS. START and END (44_commands.md R127, R132), and the transitions of MODE (R134). -/

namespace Sys2Proof.Machine

section startEnd
variable {s : State}

theorem exec_start_of_run (hmode : s.status.mode = .run) : exec .start s = .next (refuse .mode s) := by
  change startWith referenceConfig s = _
  rw [startWith, if_pos hmode, refused]

theorem exec_start_of_zero_rate (hmode : s.status.mode = .idle) (hrates : s.regs.srcRate = 0 ∨ s.regs.tgtRate = 0) :
    exec .start s = .next (refuse .cfg s) := by
  change startWith referenceConfig s = _
  rw [startWith, if_neg (by simp [hmode]), if_pos hrates, refused]

theorem exec_end_of_idle (hmode : s.status.mode = .idle) : exec .endRun s = .next (refuse .mode s) := by
  change execEnd s = _
  rw [execEnd, if_pos hmode, refused]

theorem exec_end_of_run (hmode : s.status.mode = .run) : exec .endRun s = .next (finishRun s) := by
  change execEnd s = _
  rw [execEnd, if_neg (by simp [hmode])]

end startEnd

/-- Settles O13: the state that an accepted START answers is `beginRun`, written out. -/
theorem startBeginsAFreshRun : Obligations.StartBeginsAFreshRun := fun s =>
  ⟨exec_start_of_run, exec_start_of_zero_rate, fun hmode hsrc htgt => exec_start_accepted s hmode hsrc htgt⟩

/-- Settles O14, by what BP.FLUSH can do. -/
theorem endFlushesAndGoesIdle : Obligations.EndFlushesAndGoesIdle := by
  refine fun s => ⟨exec_end_of_idle, fun hmode haligned => ?_, fun hmode hpartial => ?_⟩
  · rw [exec_end_of_run hmode, finishRun, bpFlush, if_neg (not_not.2 haligned)]
    simp only [State.outPush, List.append_nil]
    rfl
  · rw [exec_end_of_run hmode, finishRun, bpFlush, if_pos hpartial]
    rfl

/-- Settles O48, by the effects of a completed command. -/
theorem modeTransitions : Obligations.ModeTransitions := by
  intro i s t h
  cases exec_next_effect i s t h with
  | rst => exact .inl ⟨rfl, rfl⟩
  | start hmode => exact .inr (.inl ⟨rfl, hmode, rfl⟩)
  | endRun hmode => exact .inr (.inr (.inl ⟨rfl, hmode, rfl⟩))
  | refused e hi => exact .inr (.inr (.inr ⟨hi, Status.recordErr_mode _ e⟩))
  | cfg | rd => exact .inr (.inr (.inr ⟨nofun, rfl⟩))
  | sample _ _ hstep =>
    obtain ⟨-, -, -, hstatus, -⟩ := srcStep_frame _ _ _ _ hstep
    exact .inr (.inr (.inr ⟨nofun, congrArg Status.mode hstatus⟩))
  | frame _ _ _ _ hstep =>
    obtain ⟨-, -, -, hstatus, -⟩ := srcStep_frame _ _ _ _ hstep
    obtain ⟨-, -, -, -, hmode, -⟩ := flagWidth_frame s
    exact .inr (.inr (.inr ⟨nofun, (congrArg Status.mode hstatus).trans hmode⟩))

end Sys2Proof.Machine

/-! PROOFS. SAMPLE and FRAME in RUN (44_commands.md R129, R131): each presents a Sample to SRC. -/

namespace Sys2Proof.Machine

section presented
variable {s : State} {p : List Byte} {x : Int}

theorem exec_sample_of_run (b : Byte) (hmode : s.status.mode = .run) :
    exec (.sample b) s = present binary64 b.toInt s :=
  execWith_sample referenceConfig b hmode

/-- SAMPLE's operand holds every Sample (00_scope.md R9, 30_encoding.md R63). -/
theorem IsSample.toInt_ofInt (hx : IsSample x) : (BitVec.ofInt 8 x).toInt = x := by
  obtain ⟨hmin, hmax⟩ := hx
  rw [sampleMin] at hmin
  rw [sampleMax] at hmax
  exact BitVec.toInt_ofInt_eq_self (by decide) (by omega) (by omega)

theorem exec_sample_ofInt (hx : IsSample x) (hmode : s.status.mode = .run) :
    exec (.sample (BitVec.ofInt 8 x)) s = present binary64 x s := by
  rw [exec_sample_of_run _ hmode, hx.toInt_ofInt]

/-- What FRAME has checked when no cause refuses it (60_exceptions.md R143). -/
theorem Accepted.frame_checks {hasSF : Bool} (h : Accepted hasSF (.frame p) s) :
    s.status.mode = .run ∧ s.regs.channels ≠ 0 ∧ frameLengthWrong p s.regs = false := by
  refine ⟨?_, fun hzero => h .cfg (.inr (.inr (.inl ⟨rfl, hzero⟩))), ?_⟩
  · cases hmode : s.status.mode with
    | idle => exact absurd (.inr (.inl ⟨rfl, hmode⟩)) (h .mode)
    | run => rfl
  · have hfits := not_or.1 fun hwrong => h .len (.inr (.inr (.inr ⟨rfl, hwrong⟩)))
    simpa [frameLengthWrong_eq_false_iff, ← BitVec.toNat_inj] using hfits

theorem exec_frame_of_accepted (h : Accepted true (.frame p) s) :
    exec (.frame p) s = present binary64
      (frameSample .floor p s.regs.channels.toNat s.regs.width.toNat) (flagWidth s) := by
  obtain ⟨hmode, hchannels, hlength⟩ := h.frame_checks
  exact exec_frame_accepted hmode hchannels hlength

theorem Accepted.isSample_frameSample {hasSF : Bool} (h : Accepted hasSF (.frame p) s) :
    IsSample (frameSample .floor p s.regs.channels.toNat s.regs.width.toNat) := by
  obtain ⟨-, hchannels, hlength⟩ := h.frame_checks
  obtain ⟨hsample, -⟩ := frameGivesOneSample .floor p s.regs hchannels hlength
  exact hsample

/-- The width flag as one equation (10_state.md R26). -/
theorem flagWidth_eq (s : State) : flagWidth s = { s with status := { s.status with
    wUnsup := s.status.wUnsup || decide (s.regs.width.toNat ≠ 8 ∧ s.regs.width.toNat ≠ 16) } } := by
  have hwidth : decide (s.regs.width.toNat ≠ 8 ∧ s.regs.width.toNat ≠ 16) =
      !widthSupported s.regs.width.toNat := by
    simp [widthSupported]
  rw [hwidth]
  obtain ⟨hsupported, hflag⟩ | ⟨hunsupported, hflag⟩ := flagWidth_cases s
  · rw [hflag, hsupported, Bool.not_true, Bool.or_false]
  · rw [hflag, hunsupported, Bool.not_false, Bool.or_true]
    rfl

end presented

/-- Settles O27: the one forward of equal rates, written out. -/
theorem sampleUnderEqualRates : Obligations.SampleUnderEqualRates := fun _ b hmode hrates hn =>
  (exec_sample_of_run b hmode).trans (present_of_equal_rates binary64 b.toInt hrates hn)

/-- Settles O31: the average of Samples is a Sample, so the operand of SAMPLE holds it. -/
theorem frameActsAsSampleOfItsFrame : Obligations.FrameActsAsSampleOfItsFrame := by
  intro s p haccepted
  obtain ⟨hmode, -, -⟩ := haccepted.frame_checks
  obtain ⟨-, -, -, -, hflag, -⟩ := flagWidth_frame s
  rw [← flagWidth_eq, exec_sample_ofInt haccepted.isSample_frameSample (hflag.trans hmode),
    exec_frame_of_accepted haccepted]

/-- Settles O30: the one forward of equal rates, after the width flag. -/
theorem frameUnderEqualRates : Obligations.FrameUnderEqualRates := by
  intro s p haccepted hrates hn
  refine ⟨_, rfl, ?_⟩
  rw [exec_frame_of_accepted haccepted, flagWidth_eq]
  exact present_of_equal_rates binary64 _ hrates hn

end Sys2Proof.Machine

/-! PROOFS. Commands one after the other (20_memory.md R51), between START and END. -/

namespace Sys2Proof.Machine

section execAll
variable {i : Instr} {is : List Instr} {s t : State} {r : Fault}

theorem execAll_cons_of_next (h : exec i s = .next t) (is : List Instr) : execAll (i :: is) s = execAll is t := by
  rw [execAll, h]

theorem execAll_append_of_next (h : execAll is s = .next t) (js : List Instr) :
    execAll (is ++ js) s = execAll js t := by
  induction is generalizing s with
  | nil => cases h; rfl
  | cons i is ih =>
    rw [execAll] at h
    split at h
    case h_1 u hu => exact (execAll_cons_of_next hu _).trans (ih h)
    case h_2 | h_3 => cases h

theorem execAll_append_of_fault (h : execAll is s = .fault r) (js : List Instr) :
    execAll (is ++ js) s = .fault r := by
  induction is generalizing s with
  | nil => cases h
  | cons i is ih =>
    rw [execAll] at h
    split at h
    case h_1 u hu => exact (execAll_cons_of_next hu _).trans (ih h)
    case h_2 hfault => rw [List.cons_append, execAll, hfault, h]
    case h_3 => cases h

/-- The commands between an accepted START and an END in RUN. -/
theorem execAll_start_end (hmode : s.status.mode = .idle) (hsrc : s.regs.srcRate ≠ 0) (htgt : s.regs.tgtRate ≠ 0)
    (h : execAll is (beginRun binary64 s) = .next t) (hrun : t.status.mode = .run) :
    execAll (.start :: (is ++ [.endRun])) s = .next (finishRun t) := by
  rw [execAll_cons_of_next (exec_start_accepted s hmode hsrc htgt), execAll_append_of_next h,
    execAll_cons_of_next (exec_end_of_run hrun), execAll]

end execAll

/-! SRC.STEP of a Sample within the bound of R170, as the outcome of the command that presents it. -/

section present
variable {c : CursorNum} {x : Int} {s t : State} (hn : s.cur.n + 1 < runLimit)
include hn

theorem present_of_done (h : srcStep c x s = .done t) : present c x s = .next t := by
  rw [present, if_neg (Nat.not_le.2 hn), h]

theorem present_of_hang (h : srcStep c x s = .hang t) : present c x s = .fault (.srcHang t x) := by
  rw [present, if_neg (Nat.not_le.2 hn), h]

end present

/-- SAMPLE of each Sample in a run is SRC.STEP of them in order. -/
theorem execAll_sampleCommands_cases {xs : List Int} {s : State} (hxs : ∀ x ∈ xs, IsSample x)
    (hmode : s.status.mode = .run) (hn : s.cur.n + xs.length < runLimit) :
    (∃ t, srcSteps binary64 xs s = .done t ∧ execAll (sampleCommands xs) s = .next t) ∨
    ∃ t x, srcSteps binary64 xs s = .hang t ∧ execAll (sampleCommands xs) s = .fault (.srcHang t x) := by
  induction xs generalizing s with
  | nil => exact .inl ⟨s, rfl, rfl⟩
  | cons x xs ih =>
    obtain ⟨hx, hxs⟩ := List.forall_mem_cons.1 hxs
    rw [List.length_cons] at hn
    have hexec := exec_sample_ofInt hx hmode
    have hcommands : sampleCommands (x :: xs) = .sample (BitVec.ofInt 8 x) :: sampleCommands xs := rfl
    rw [hcommands]
    cases hstep : srcStep binary64 x s with
    | done u =>
      rw [present_of_done (by omega) hstep] at hexec
      obtain ⟨hindex, -, -, hstatus, -⟩ := srcStep_frame binary64 x s u hstep
      rw [srcSteps, hstep, execAll_cons_of_next hexec]
      exact ih hxs (hstatus ▸ hmode) (by omega)
    | hang u =>
      rw [present_of_hang (by omega) hstep] at hexec
      exact .inr ⟨u, x, by rw [srcSteps, hstep], by rw [execAll, hexec]⟩

end Sys2Proof.Machine

/-! PROOFS. A whole run (44_commands.md R133): the forwards of a sample list are ADM, then BP, over the list; END
flushes what is left, so the bytes are Encode of the Samples. -/

namespace Sys2Proof.Machine

theorem forwardAll_eq (ys : List Int) (s : State) :
    (forwardAll ys s).bits = (bpPushAll s.bits (admRun s.enc ys).2).1 ∧
    (forwardAll ys s).chan =
      { s.chan with out := s.chan.out ++ (bpPushAll s.bits (admRun s.enc ys).2).2 } := by
  induction ys generalizing s with
  | nil => simp [forwardAll, admRun, bpPushAll]
  | cons y ys ih =>
    obtain ⟨hbits, hchan⟩ := ih (forward y s)
    refine ⟨hbits, hchan.trans ?_⟩
    simp [admRun, bpPushAll]

/-- `v` is where the Samples of a run from `s` have been presented, so that END pushes the last of `bytes`. -/
structure RunPresented (s : State) (count : Nat) (bytes : List Byte) (v : State) : Prop where
  bits : (finishRun v).bits = BitStream.empty
  chan : (finishRun v).chan = { s.chan with out := s.chan.out ++ bytes }
  index : v.cur.n = count
  regs : v.regs = s.regs
  status : v.status = ⟨.run, false, s.status.err⟩

section wholeRun
variable {s : State} {xs : List Int} (hsrc : s.regs.srcRate ≠ 0) (htgt : s.regs.tgtRate ≠ 0)
  (hlength : xs.length < 2 ^ 53)
include hsrc htgt hlength

/-- From START, SRC.STEP of the Samples forwards Resample of them (41_resampler.md R94). -/
theorem srcSteps_of_encodeRun_eq_some {bytes : List Byte} (h : encodeRun binary64 xs s.regs = some bytes) :
    ∃ v, srcSteps binary64 xs (beginRun binary64 s) = .done v ∧ RunPresented s xs.length bytes v := by
  obtain ⟨ys, hys, rfl⟩ := Option.map_eq_some_iff.1 h
  obtain ⟨hdone, -⟩ := streamingResamplerIsBatchResampler (beginRun binary64 s) xs hsrc htgt rfl hlength
  obtain ⟨v, hv, -, hbits, hchan, hindex, -, -, hregs, hstatus⟩ := hdone ys hys
  obtain ⟨hpushed, hout⟩ := forwardAll_eq ys (beginRun binary64 s)
  obtain ⟨hempty, hbytes⟩ := BitStream.holds_empty.pushAll_flush (admRun EncoderState.initial ys).2
  rw [hpushed] at hbits
  rw [hout] at hchan
  refine ⟨v, hv, ?_, ?_, hindex, hregs, hstatus⟩
  · change (bpFlush v.bits).1 = _
    rw [hbits]
    exact hempty
  · change { v.chan with out := v.chan.out ++ (bpFlush v.bits).2 } = _
    rw [hbits, hchan, List.append_assoc]
    exact congrArg (fun pushed => { s.chan with out := s.chan.out ++ pushed }) hbytes

theorem srcSteps_of_encodeRun_eq_none (h : encodeRun binary64 xs s.regs = none) :
    ∃ t, srcSteps binary64 xs (beginRun binary64 s) = .hang t := by
  obtain ⟨-, hhang⟩ := streamingResamplerIsBatchResampler (beginRun binary64 s) xs hsrc htgt rfl hlength
  exact hhang (Option.map_eq_none_iff.1 h)

end wholeRun

/-- Settles O39: the SAMPLEs are SRC.STEP of their Samples, which Encode describes. -/
theorem wholeRunPushesEncode : Obligations.WholeRunPushesEncode := by
  intro s xs hmode hsrc htgt hxs hlength
  have hn : (beginRun binary64 s).cur.n + xs.length < runLimit := (Nat.zero_add _).trans_lt hlength
  obtain ⟨v, hsteps, hexec⟩ | ⟨frozen, x, hsteps, hexec⟩ :=
    execAll_sampleCommands_cases hxs (s := beginRun binary64 s) rfl hn
  · refine ⟨fun bytes hbytes => ?_, fun hnone => ?_⟩
    · obtain ⟨_, hv, hpresented⟩ := srcSteps_of_encodeRun_eq_some hsrc htgt hlength hbytes
      cases hsteps.symm.trans hv
      obtain ⟨hbits, hchan, hindex, hregs, hstatus⟩ := hpresented
      refine ⟨finishRun v, execAll_start_end hmode hsrc htgt hexec (by rw [hstatus]), by rw [hchan], by rw [hchan],
        by rw [hchan], ?_, hbits, hregs, hindex⟩
      change v.status.setMode .idle = _
      rw [hstatus]
      rfl
    · obtain ⟨_, hhang⟩ := srcSteps_of_encodeRun_eq_none hsrc htgt hlength hnone
      cases hsteps.symm.trans hhang
  · refine ⟨fun bytes hbytes => ?_, fun _ => ⟨frozen, x, ?_⟩⟩
    · obtain ⟨_, hv, -⟩ := srcSteps_of_encodeRun_eq_some hsrc htgt hlength hbytes
      cases hsteps.symm.trans hv
    · rw [execAll_cons_of_next (exec_start_accepted s hmode hsrc htgt), execAll_append_of_fault hexec]

end Sys2Proof.Machine

/-! PROOFS. A run of SAMPLE, FRAME and RD commands (44_commands.md R133) beside SRC.STEP of the Samples they
present: W_UNSUP and RESP may differ, the data path and the bytes pushed do not. -/

namespace Sys2Proof.Machine

/-- The registers and channels that are not of the data path: `commands` completed, of which `samples` presented a
Sample and each of the others delivered one word. -/
structure RunRecord (s t : State) (commands samples : Nat) : Prop where
  cmd : t.chan.cmd = s.chan.cmd
  resp : t.chan.resp.length + samples = s.chan.resp.length + commands
  err : t.status.err = s.status.err

theorem RunRecord.trans {s t u : State} {m m' k k' : Nat} (hst : RunRecord s t m k) (htu : RunRecord t u m' k') :
    RunRecord s u (m' + m) (k' + k) where
  cmd := htu.cmd.trans hst.cmd
  resp := by
    have h1 := hst.resp
    have h2 := htu.resp
    omega
  err := htu.err.trans hst.err

theorem SameDataPath.trans {s t u : State} (hst : SameDataPath s t) (htu : SameDataPath t u) : SameDataPath s u := by
  obtain ⟨henc, hbits, hcur, hregs, hmode⟩ := hst
  obtain ⟨henc', hbits', hcur', hregs', hmode'⟩ := htu
  exact ⟨henc.trans henc', hbits.trans hbits', hcur.trans hcur', hregs.trans hregs', hmode.trans hmode'⟩

/-- A run set beside one from the same state has pushed the same bytes. -/
theorem SameRun.out_eq {s t u : State} (h : SameRun s s t u) : u.chan.out = t.chan.out := by
  obtain ⟨-, bytes, ht, hu⟩ := h
  rw [ht, hu]

section besideSrcSteps
variable {i : Instr} {x : Int} {s u v : State}

/-- A command that presents `x` presents it in the state it runs in, but for W_UNSUP. -/
theorem exec_of_presentedSample (hmode : s.status.mode = .run) (hx : presentedSample s.regs i = some x) :
    ∃ w, exec i s = present binary64 x w ∧ SameDataPath s w ∧ w.chan = s.chan ∧ w.status.err = s.status.err := by
  cases i with
  | sample b =>
    cases hx
    exact ⟨s, exec_sample_of_run b hmode, ⟨rfl, rfl, rfl, rfl, rfl⟩, rfl, rfl⟩
  | frame p =>
    rw [presentedSample] at hx
    split at hx
    case isTrue => cases hx
    case isFalse hchecks =>
      cases hx
      obtain ⟨hchannels, hlength⟩ := not_or.1 hchecks
      obtain ⟨henc, hbits, hcur, hregs, hflag, herr, hchan⟩ := flagWidth_frame s
      exact ⟨flagWidth s, exec_frame_accepted hmode hchannels (Bool.eq_false_iff.2 hlength),
        ⟨henc.symm, hbits.symm, hcur.symm, hregs.symm, hflag.symm⟩, hchan, herr⟩
  | rst | cfg | rd | start | endRun => cases hx

variable (hsame : SameDataPath u s)
include hsame

/-- One presenting command beside one SRC.STEP. -/
theorem exec_sameRun_srcStep (hmode : u.status.mode = .run) (hn : u.cur.n + 1 < runLimit)
    (hx : presentedSample u.regs i = some x) (hdone : srcStep binary64 x u = .done v) :
    ∃ t, exec i s = .next t ∧ SameRun u s v t ∧ RunRecord s t 1 1 := by
  have ⟨_, _, hcur, hregs, hmodes⟩ := hsame
  obtain ⟨w, hexec, hpath, hchan, herr⟩ := exec_of_presentedSample (hmodes ▸ hmode) (hregs ▸ hx)
  have ⟨_, _, hcur', _⟩ := hpath
  have hflagged : SameRun u s u w := .of_out_eq (hsame.trans hpath) rfl (congrArg Channels.out hchan)
  obtain ⟨t, hstep, hrun⟩ := srcStep_sameRun binary64 x hflagged.path hdone
  obtain ⟨-, -, -, hstatus, hcmd, hresp, -⟩ := srcStep_frame binary64 x w t hstep
  refine ⟨t, hexec.trans (present_of_done (by rwa [← hcur', ← hcur]) hstep), hflagged.trans hrun, ?_, ?_, ?_⟩
  · rw [hcmd, hchan]
  · rw [hresp, hchan]
  · rw [hstatus, herr]

/-- RD beside no step at all (44_commands.md R125). -/
theorem exec_rd_sameRun {a : RegAddr} (ha : a.toNat ≤ 9) :
    ∃ t, exec (.rd a) s = .next t ∧ SameRun u s u t ∧ RunRecord s t 1 0 := by
  obtain ⟨word, -, hexec⟩ := exec_rd_of_legal s ha
  exact ⟨s.respond word, hexec, .of_out_eq hsame rfl rfl, rfl, by simp, rfl⟩

end besideSrcSteps

/-- The commands of a run beside SRC.STEP of the Samples they present, by induction on the commands. -/
theorem execAll_sameRun_srcSteps {is : List Instr} {s u v : State} (hsame : SameDataPath u s)
    (hmode : u.status.mode = .run)
    (his : ∀ i ∈ is, (presentedSample u.regs i).isSome = true ∨ ∃ a : RegAddr, i = .rd a ∧ a.toNat ≤ 9)
    (hn : u.cur.n + (is.filterMap (presentedSample u.regs)).length < runLimit)
    (hdone : srcSteps binary64 (is.filterMap (presentedSample u.regs)) u = .done v) :
    ∃ t, execAll is s = .next t ∧ SameRun u s v t ∧
      RunRecord s t is.length (is.filterMap (presentedSample u.regs)).length := by
  induction is generalizing s u with
  | nil =>
    cases hdone
    exact ⟨s, rfl, .of_out_eq hsame rfl rfl, rfl, rfl, rfl⟩
  | cons i is ih =>
    obtain ⟨hi, htail⟩ := List.forall_mem_cons.1 his
    cases hx : presentedSample u.regs i with
    | some x =>
      rw [List.filterMap_cons_some hx] at hn hdone ⊢
      rw [List.length_cons] at hn
      obtain ⟨u1, hstep, hrest⟩ := srcSteps_cons_eq_done_iff.1 hdone
      obtain ⟨hindex, -, hregs, hstatus, -⟩ := srcStep_frame binary64 x u u1 hstep
      obtain ⟨s1, hexec, hfirst, hrecord⟩ := exec_sameRun_srcStep hsame hmode (by omega) hx hstep
      rw [← hregs] at htail hn hrest ⊢
      obtain ⟨t, ht, hothers, hrecords⟩ := ih hfirst.path (hstatus ▸ hmode) htail (by omega) hrest
      exact ⟨t, (execAll_cons_of_next hexec is).trans ht, hfirst.trans hothers, hrecord.trans hrecords⟩
    | none =>
      obtain ⟨a, rfl, ha⟩ := hi.resolve_left (by simp [hx])
      rw [List.filterMap_cons_none hx] at hn hdone ⊢
      obtain ⟨s1, hexec, hfirst, hrecord⟩ := exec_rd_sameRun hsame ha
      obtain ⟨t, ht, hothers, hrecords⟩ := ih hfirst.path hmode htail hn hdone
      exact ⟨t, (execAll_cons_of_next hexec is).trans ht, hfirst.trans hothers, hrecord.trans hrecords⟩

/-- Settles O56: the run pushes what SRC.STEP of its Samples and END push. -/
theorem anyRunPushesEncode : Obligations.AnyRunPushesEncode := by
  intro s is bytes hmode hsrc htgt his hlength hbytes
  obtain ⟨v, hv, hbits, hchan, hindex, hregs, hstatus⟩ := srcSteps_of_encodeRun_eq_some hsrc htgt hlength hbytes
  have hn : (beginRun binary64 s).cur.n + (is.filterMap (presentedSample s.regs)).length < runLimit :=
    (Nat.zero_add _).trans_lt hlength
  obtain ⟨t, ht, hrun, hcmd, hresp, herr⟩ :=
    execAll_sameRun_srcSteps (u := beginRun binary64 s) ⟨rfl, rfl, rfl, rfl, rfl⟩ rfl his hn hv
  have ⟨_, _, _, _, hmodes⟩ := hrun.path
  have hended := hrun.trans (sameRun_finishRun hrun.path)
  have ⟨_, hbits', hcur', hregs', _⟩ := hended.path
  refine ⟨finishRun t, execAll_start_end hmode hsrc htgt ht (by rw [← hmodes, hstatus]), ?_, hcmd, hresp, rfl, herr,
    ?_, ?_, ?_⟩
  · rw [hended.out_eq, hchan]
  · exact hbits'.symm.trans hbits
  · exact hregs'.symm.trans hregs
  · exact (congrArg Cursor.n hcur').symm.trans hindex

end Sys2Proof.Machine

/-! PROOFS. The refusal (60_exceptions.md R140, R141): what it writes, and the commands that leave ERR alone. -/

namespace Sys2Proof.Machine

theorem Status.recordErr_eq (f : Status) (e : ErrCode) :
    f.recordErr e = { f with err := some (f.err.getD e) } := by
  obtain ⟨mode, wUnsup, err⟩ := f
  cases err <;> rfl

/-- Settles O46: the one field that the refusal writes. -/
theorem refusedCommandChangesOnlyErr : Obligations.RefusedCommandChangesOnlyErr := fun e s =>
  ⟨some (s.status.err.getD e), by rw [refuse, Status.recordErr_eq]⟩

section keptErr
variable {s t : State} {e d : ErrCode}

theorem refuse_err_of_none (h : s.status.err = none) : (refuse e s).status.err = some e := by
  rw [refuse_status, Status.recordErr_err, h, Option.getD_none]

theorem refuse_err_of_some (h : s.status.err = some d) : (refuse e s).status.err = some d := by
  rw [refuse_status, Status.recordErr_err, h, Option.getD_some]

/-- A command that completes writes ERR by RST or by a refusal, if at all. -/
theorem ExecEffect.err_eq {i : Instr} (h : ExecEffect i s t) (hi : i ≠ .rst) :
    t.status.err = s.status.err ∨ ∃ e, t = refuse e s := by
  cases h with
  | refused e => exact .inr ⟨e, rfl⟩
  | rst => exact absurd rfl hi
  | cfg | rd | start | endRun => exact .inl rfl
  | sample _ _ hstep =>
    obtain ⟨-, -, -, hstatus, -⟩ := srcStep_frame _ _ _ _ hstep
    exact .inl (congrArg Status.err hstatus)
  | frame _ _ _ _ hstep =>
    obtain ⟨-, -, -, hstatus, -⟩ := srcStep_frame _ _ _ _ hstep
    obtain ⟨-, -, -, -, -, herr, -⟩ := flagWidth_frame s
    exact .inl ((congrArg Status.err hstatus).trans herr)

end keptErr

/-- Settles O47: a command other than RST leaves ERR alone or is refused, and a refusal keeps the first code. -/
theorem firstErrorIsKept : Obligations.FirstErrorIsKept := by
  refine fun s => ⟨fun e => refuse_err_of_none, fun e d => refuse_err_of_some, fun i t d herr hnext hi => ?_,
    _, rfl, rfl⟩
  obtain hkept | ⟨e, rfl⟩ := (exec_next_effect i s t hnext).err_eq hi
  · exact hkept.trans herr
  · exact refuse_err_of_some herr

end Sys2Proof.Machine

/-! PROOFS. The table of refusal causes (60_exceptions.md R143, R145): for each command, the refusal with the
first of its causes, and the effect where there is none. -/

namespace Sys2Proof.Machine

theorem Mode.eq_idle_of_ne_run {m : Mode} (h : m ≠ .run) : m = .idle := by
  cases m with
  | idle => rfl
  | run => exact absurd rfl h

/-- The cause of ERR_LEN in the table is the length check of FRAME (44_commands.md R131). -/
theorem frameLengthWrong_eq_true_iff (p : List Byte) (r : ConfigRegs) : frameLengthWrong p r = true ↔
    r.width = 8 ∧ p.length ≠ r.channels.toNat ∨ r.width = 16 ∧ p.length ≠ 2 * r.channels.toNat := by
  simp [frameLengthWrong, ← BitVec.toNat_inj]

section refusedWith
variable {cfg : Config} {hasSF : Bool} {s : State} {e : ErrCode}

theorem exec_cfg_of_refusedWith {a : RegAddr} {v : Word} (h : RefusedWith hasSF (.cfg a v) s e) :
    exec (.cfg a v) s = .next (refuse e s) := by
  obtain ⟨⟨rfl, hrun⟩ | ⟨rfl, ha⟩ | ⟨rfl, hbyte, hlarge⟩, hfirst⟩ := h
  · exact exec_cfg_of_run a v hrun
  · have hidle := Mode.eq_idle_of_ne_run fun hrun => hfirst .mode (by decide) (.inl ⟨rfl, hrun⟩)
    exact exec_cfg_of_reserved hidle ha
  · have hidle := Mode.eq_idle_of_ne_run fun hrun => hfirst .mode (by decide) (.inl ⟨rfl, hrun⟩)
    obtain ⟨r, hwrite⟩ := exists_writeReg_eq_some v s.regs (a := a) (by omega)
    rw [exec_cfg_of_write hidle hwrite, if_pos ⟨hbyte, hlarge⟩]

theorem startWith_of_refusedWith (h : RefusedWith hasSF .start s e) :
    startWith cfg s = .next (refuse e s) := by
  obtain ⟨⟨rfl, hrun⟩ | ⟨rfl, hrates⟩, hfirst⟩ := h
  · rw [startWith, if_pos hrun, refused]
  · have hidle := fun hrun => hfirst .mode (by decide) (.inl ⟨rfl, hrun⟩)
    rw [startWith, if_neg hidle, if_pos hrates, refused]

theorem frameWith_of_refusedWith {p : List Byte} (h : RefusedWith cfg.hasSF (.frame p) s e) :
    frameWith cfg p s = .next (refuse e s) := by
  obtain ⟨hcause, hfirst⟩ := h
  have hsf (hop : errNumber (some .op) < errNumber (some e)) : ¬ (!cfg.hasSF) = true := fun hsf =>
    hfirst .op hop (.inl ⟨rfl, by simpa using hsf⟩)
  have hrun (hmode : errNumber (some .mode) < errNumber (some e)) : ¬ s.status.mode = .idle := fun hidle =>
    hfirst .mode hmode (.inr (.inl ⟨rfl, hidle⟩))
  have hchannels (hcfg : errNumber (some .cfg) < errNumber (some e)) : ¬ s.regs.channels = 0 := fun hzero =>
    hfirst .cfg hcfg (.inr (.inr (.inl ⟨rfl, hzero⟩)))
  obtain ⟨rfl, habsent⟩ | ⟨rfl, hidle⟩ | ⟨rfl, hzero⟩ | ⟨rfl, hlength⟩ := hcause
  · rw [frameWith, if_pos (by simp [habsent]), refused]
  · rw [frameWith, if_neg (hsf (by decide)), if_pos hidle, refused]
  · rw [frameWith, if_neg (hsf (by decide)), if_neg (hrun (by decide)), if_pos hzero, refused]
  · rw [frameWith, if_neg (hsf (by decide)), if_neg (hrun (by decide)), if_neg (hchannels (by decide)),
      if_pos ((frameLengthWrong_eq_true_iff p s.regs).2 hlength), refused]

/-- R143, R145: the code is the first of the causes met. -/
theorem execWith_of_refusedWith {i : Instr} (h : RefusedWith cfg.hasSF i s e) :
    execWith cfg i s = .next (refuse e s) := by
  cases i with
  | rst => exact h.1.elim
  | cfg a v => exact exec_cfg_of_refusedWith h
  | rd a =>
    obtain ⟨⟨rfl, ha⟩, -⟩ := h
    exact exec_rd_of_reserved ha
  | start => exact startWith_of_refusedWith h
  | sample b =>
    obtain ⟨⟨rfl, hidle⟩, -⟩ := h
    change sampleWith cfg b s = _
    rw [sampleWith, if_pos hidle, refused]
  | frame p => exact frameWith_of_refusedWith h
  | endRun =>
    obtain ⟨⟨rfl, hidle⟩, -⟩ := h
    exact exec_end_of_idle hidle

end refusedWith

section accepted
variable {cfg : Config} {hasSF : Bool} {s t : State}

theorem Accepted.exec_cfg {a : RegAddr} {v : Word} (h : Accepted hasSF (.cfg a v) s) :
    ∃ r, exec (.cfg a v) s = .next { s with regs := r } := by
  have hidle := Mode.eq_idle_of_ne_run fun hrun => h .mode (.inl ⟨rfl, hrun⟩)
  have ha : a.toNat ≤ 3 := Nat.not_lt.1 fun hreserved => h .addr (.inr (.inl ⟨rfl, hreserved⟩))
  obtain ⟨r, hwrite⟩ := exists_writeReg_eq_some v s.regs ha
  exact ⟨r, by rw [exec_cfg_of_write hidle hwrite, if_neg fun hlarge => h .cfg (.inr (.inr ⟨rfl, hlarge⟩))]⟩

theorem Accepted.exec_rd {a : RegAddr} (h : Accepted hasSF (.rd a) s) :
    ∃ v, exec (.rd a) s = .next (s.respond v) := by
  obtain ⟨v, -, hexec⟩ := exec_rd_of_legal s (Nat.not_lt.1 fun hreserved => h .addr ⟨rfl, hreserved⟩)
  exact ⟨v, hexec⟩

theorem Accepted.startWith (h : Accepted hasSF .start s) : startWith cfg s = .next (beginRun cfg.cursor s) := by
  rw [Machine.startWith, if_neg fun hrun => h .mode (.inl ⟨rfl, hrun⟩),
    if_neg fun hrates => h .cfg (.inr ⟨rfl, hrates⟩)]

theorem Accepted.sampleWith {b : Byte} (h : Accepted hasSF (.sample b) s) :
    sampleWith cfg b s = present cfg.cursor (sampleOperand b) s := by
  rw [Machine.sampleWith, if_neg fun hidle => h .mode ⟨rfl, hidle⟩]

theorem Accepted.frameWith {p : List Byte} (h : Accepted cfg.hasSF (.frame p) s) :
    frameWith cfg p s = present cfg.cursor
      (frameSample cfg.divMode p s.regs.channels.toNat s.regs.width.toNat) (flagWidth s) := by
  obtain ⟨hrun, hchannels, hlength⟩ := h.frame_checks
  rw [Machine.frameWith, if_neg fun hsf => h .op (.inl ⟨rfl, by simpa using hsf⟩), if_neg (by simp [hrun]),
    if_neg hchannels, if_neg (by simp [hlength])]

theorem Accepted.execEnd (h : Accepted hasSF .endRun s) : execEnd s = .next (finishRun s) := by
  rw [Machine.execEnd, if_neg fun hidle => h .mode ⟨rfl, hidle⟩]

theorem present_status {c : CursorNum} {x : Int} (h : present c x s = .next t) : t.status = s.status := by
  obtain ⟨-, hdone⟩ := present_next c x s t h
  obtain ⟨-, -, -, hstatus, -⟩ := srcStep_frame c x s t hdone
  exact hstatus

/-- R143: there is no other cause. -/
theorem Accepted.execWith_err {i : Instr} (h : Accepted cfg.hasSF i s) (hi : i ≠ .rst)
    (hnext : execWith cfg i s = .next t) : t.status.err = s.status.err := by
  cases i with
  | rst => exact absurd rfl hi
  | cfg a v =>
    obtain ⟨r, hexec⟩ := h.exec_cfg
    cases hexec.symm.trans hnext
    rfl
  | rd a =>
    obtain ⟨v, hexec⟩ := h.exec_rd
    cases hexec.symm.trans hnext
    rfl
  | start =>
    cases h.startWith.symm.trans hnext
    rfl
  | sample b => exact congrArg Status.err (present_status (h.sampleWith.symm.trans hnext))
  | frame p =>
    obtain ⟨-, -, -, -, -, hflag, -⟩ := flagWidth_frame s
    exact (congrArg Status.err (present_status (h.frameWith.symm.trans hnext))).trans hflag
  | endRun =>
    cases h.execEnd.symm.trans hnext
    rfl

end accepted

theorem execCommand_of_reserved_header {c : Command}
    (h : c.header.toNat / 8 % 2 = 1 ∨ c.header.toNat % 8 = 7) (s : State) :
    execCommand c s = .next (refuse .op s) := by
  have hreserved : c.header.rsv = true ∨ c.header.op.toNat = 7 := by
    rwa [Header.rsv_eq, Header.op_toNat, decide_eq_true_iff]
  obtain ⟨why, hdecode⟩ := exists_decode_eq_reserved c hreserved
  exact execCommand_of_decode_eq_reserved hdecode s

theorem exec_eq_execWith_reference (i : Instr) (s : State) : exec i s = execWith referenceConfig i s := by
  cases i <;> rfl

/-- Settles O45, by the table's two sides for each command: the first cause met, or none. -/
theorem refusalCausesAreComplete : Obligations.RefusalCausesAreComplete :=
  ⟨fun _ _ _ _ => execWith_of_refusedWith,
    fun _ _ _ _ haccepted hnext => or_iff_not_imp_left.2 fun hi => haccepted.execWith_err hi hnext,
    fun _ s hbits => execCommand_of_reserved_header hbits s, exec_eq_execWith_reference⟩

end Sys2Proof.Machine

/-! PROOFS. Reset (70_reset_and_hazards.md R160, R161) and the registers that are frozen in a run (R165). -/

namespace Sys2Proof.Machine

/-- Settles O9: R32's table, register by register. -/
theorem resetLeavesEveryRegisterAtItsValue : Obligations.ResetLeavesEveryRegisterAtItsValue := by
  have hzero : f64Scaled posZero = 0 := by decide
  exact ⟨by decide, rfl, rfl, hzero, hzero, rfl, rfl, rfl, rfl, rfl, rfl, rfl, rfl, rfl, rfl, rfl, rfl⟩

/-- Settles O10: RST asks for no mode, and the state it answers is `State.reset` beside the old channels. -/
theorem rstGivesTheResetState : Obligations.RstGivesTheResetState := fun _ => rfl

/-- Settles O49, by the effects of a completed command: only RST and CFG write the configuration. -/
theorem configurationFrozenInRun : Obligations.ConfigurationFrozenInRun := by
  intro i s t h hne
  cases exec_next_effect i s t h with
  | rst => exact .inl rfl
  | cfg hmode => exact .inr ⟨hmode, _, _, rfl⟩
  | refused | rd | start | endRun => exact absurd rfl hne
  | sample _ _ hstep =>
    obtain ⟨-, -, hregs, -⟩ := srcStep_frame _ _ _ _ hstep
    exact absurd hregs hne
  | frame _ _ _ _ hstep =>
    obtain ⟨-, -, hregs, -⟩ := srcStep_frame _ _ _ _ hstep
    obtain ⟨-, -, -, hflag, -⟩ := flagWidth_frame s
    exact absurd (hregs.trans hflag) hne

end Sys2Proof.Machine

/-! PROOFS. What END leaves in the bit buffer (70_reset_and_hazards.md R174). -/

namespace Sys2Proof.Machine

theorem bpFlush_bytes (b : BitStream) : (bpFlush b).2 = if b.bitpos = 0 then [] else [b.acc] := by
  obtain ⟨hpartial, hflush⟩ | ⟨haligned, hflush⟩ := bpFlush_cases b
  · rw [hflush, if_neg hpartial]
  · rw [hflush, if_pos haligned]

/-- With no bit placed every bit of `acc` is padding, so the buffer is empty already. -/
theorem BitStream.Padded.eq_empty {b : BitStream} (h : b.Padded) (haligned : b.bitpos = 0) :
    b = BitStream.empty := by
  have hacc : b.acc.toNat < 2 ^ b.bitpos.toNat := BitStream.padded_iff.1 h
  obtain ⟨acc, bitpos⟩ := b
  obtain rfl : bitpos = 0 := haligned
  obtain rfl : acc = 0 := BitVec.eq_of_toNat_eq (Nat.lt_one_iff.1 hacc)
  rfl

theorem BitStream.Padded.flush_eq_empty {b : BitStream} (h : b.Padded) : (bpFlush b).1 = BitStream.empty := by
  obtain ⟨-, hflush⟩ | ⟨haligned, hflush⟩ := bpFlush_cases b
  · rw [hflush]
  · rw [hflush, h.eq_empty haligned]

/-- Settles O15: the flush empties a padded buffer, and END moves the mode and OUT beside it. -/
theorem endedRunHoldsNoBits : Obligations.EndedRunHoldsNoBits := by
  intro s h hmode
  refine ⟨finishRun s, exec_end_of_run hmode, rfl, h.padded.flush_eq_empty, rfl, rfl, rfl, rfl, rfl, rfl, rfl, ?_⟩
  rw [← bpFlush_bytes]
  rfl

end Sys2Proof.Machine

/-! PROOFS. The bytes that turns of the loop push (70_reset_and_hazards.md R168, R173). -/

namespace Sys2Proof.Machine

/-- Each turn places one bit, in the bit buffer or in a byte on OUT. -/
theorem srcTurns_count (c : CursorNum) (x : Int) (k : Nat) (s : State) :
    8 * (srcTurns c x k s).chan.out.length + (srcTurns c x k s).bits.bitpos.toNat =
      8 * s.chan.out.length + s.bits.bitpos.toNat + k := by
  induction k generalizing s with
  | zero => rfl
  | succ k ih =>
    have hone := bpPush_count s.bits (admStep s.enc x).2
    have hrest := ih (srcTurn c x s)
    rw [srcTurn_out, srcTurn_bits, List.length_append] at hrest
    rw [srcTurns]
    omega

/-- Settles O22: fewer than eight of the bits placed are still in the buffer. -/
theorem forwardsPushOneByteInEight : Obligations.ForwardsPushOneByteInEight := by
  intro c x k s
  have hcount := srcTurns_count c x k s
  have hpending := (srcTurns c x k s).bits.bitpos.isLt
  have hpending' := s.bits.bitpos.isLt
  omega

/-- Settles O35: eight turns for each byte. -/
theorem hangPushesWithoutBound : Obligations.HangPushesWithoutBound := by
  intro c x s m
  obtain ⟨hbytes, -⟩ := forwardsPushOneByteInEight c x (8 * m) s
  exact ⟨8 * m, by omega⟩

end Sys2Proof.Machine

/-! PROOFS. Where SAMPLE and FRAME do not complete: the bound of R170, and the hang of R168. -/

namespace Sys2Proof.Machine

section stops
variable {c : CursorNum} {x : Int} {s : State}

theorem present_of_runLimit_le (hn : runLimit ≤ s.cur.n + 1) : present c x s = .refused .runTooLong :=
  if_pos hn

/-- Everything `present` can answer. -/
theorem present_cases (c : CursorNum) (x : Int) (s : State) : (∃ t, present c x s = .next t) ∨
    ((∃ frozen y, present c x s = .fault (.srcHang frozen y)) ∨
      runLimit ≤ s.cur.n + 1 ∧ present c x s = .refused .runTooLong) := by
  rcases Nat.lt_or_ge (s.cur.n + 1) runLimit with hn | hn
  · cases hstep : srcStep c x s with
    | done t => exact .inl ⟨t, present_of_done hn hstep⟩
    | hang t => exact .inr (.inl ⟨t, x, present_of_hang hn hstep⟩)
  · exact .inr (.inr ⟨hn, present_of_runLimit_le hn⟩)

/-- A cursor that is ever off the index leaves it at a first addition. -/
theorem exists_cursorLeaves_iff : (∃ k, CursorLeaves c s k) ↔
    ¬ ∀ k, c.ffloor (cursorAfter c s.cur.ratio k s.cur.idx) = s.cur.n := by
  classical
  constructor
  · rintro ⟨k, h⟩ hon
    exact h.leaves (hon k)
  · intro hoff
    have hever := not_forall.1 hoff
    exact ⟨Nat.find hever, fun j hj => not_not.1 (Nat.find_min hever hj), Nat.find_spec hever⟩

theorem exists_srcStep_eq_hang_iff : (∃ t, srcStep c x s = .hang t) ↔ s.regs.srcRate ≠ s.regs.tgtRate ∧
    ∀ k, c.ffloor (cursorAfter c s.cur.ratio k s.cur.idx) = s.cur.n := by
  constructor
  · rintro ⟨t, ht⟩
    have hrates : s.regs.srcRate ≠ s.regs.tgtRate := fun heq => by
      rw [srcStep, if_pos heq] at ht
      cases ht
    refine ⟨hrates, not_not.1 fun hoff => ?_⟩
    obtain ⟨k, hleaves⟩ := exists_cursorLeaves_iff.2 hoff
    cases ht.symm.trans ((srcStep_eq_done_iff hrates).2 ⟨k, hleaves, rfl⟩)
  · rintro ⟨hrates, hon⟩
    refine SrcResult.exists_eq_hang fun t ht => ?_
    obtain ⟨k, hleaves, -⟩ := (srcStep_eq_done_iff hrates).1 ht
    exact exists_cursorLeaves_iff.1 ⟨k, hleaves⟩ hon

theorem present_eq_fault_iff (hn : s.cur.n + 1 < runLimit) {t : State} :
    present c x s = .fault (.srcHang t x) ↔ srcStep c x s = .hang t := by
  refine ⟨fun hfault => ?_, present_of_hang hn⟩
  cases hstep : srcStep c x s with
  | done u => cases hfault.symm.trans (present_of_done hn hstep)
  | hang u =>
    cases hfault.symm.trans (present_of_hang hn hstep)
    rfl

end stops

/-- Settles O34: the fuel of the loop loses no turn, so SRC.STEP hangs exactly where no addition ends the loop. -/
theorem hangExactlyWhereTheLoopNeverEnds : Obligations.HangExactlyWhereTheLoopNeverEnds := by
  intro cfg s b hmode hn
  simp only [execWith_sample cfg b hmode, present_eq_fault_iff hn, exists_srcStep_eq_hang_iff]

/-- Settles O33: both commands present a Sample, after their own checks. -/
theorem runOfTwoToThe53Refused : Obligations.RunOfTwoToThe53Refused := by
  refine fun s hmode hn => ⟨fun b => ?_, fun p haccepted => ?_⟩
  · rw [exec_sample_of_run b hmode, present_of_runLimit_le hn]
  · obtain ⟨-, -, hcur, -⟩ := flagWidth_frame s
    rw [exec_frame_of_accepted haccepted, present_of_runLimit_le (hcur.symm ▸ hn)]

/-- Settles O52, by what each command can answer; SAMPLE and FRAME answer as the Sample they present does. -/
theorem onlySampleAndFrameCanStop : Obligations.OnlySampleAndFrameCanStop := by
  intro i s
  cases i with
  | rst => exact .inl ⟨_, rfl⟩
  | cfg a v =>
    obtain ⟨e, he⟩ | ⟨r, -, -, he⟩ := execCfg_cases a v s <;> exact .inl ⟨_, he⟩
  | rd a =>
    obtain he | ⟨v, -, he⟩ := execRd_cases a s <;> exact .inl ⟨_, he⟩
  | start =>
    obtain ⟨e, he⟩ | ⟨-, -, -, he⟩ := startWith_cases referenceConfig s <;> exact .inl ⟨_, he⟩
  | endRun =>
    obtain he | ⟨-, he⟩ := execEnd_cases s <;> exact .inl ⟨_, he⟩
  | sample b =>
    obtain he | ⟨hmode, -⟩ := sampleWith_cases referenceConfig b s
    · exact .inl ⟨_, he⟩
    · rw [exec_sample_of_run b hmode]
      exact (present_cases binary64 _ s).imp_right fun hstop => ⟨.inl ⟨b, rfl⟩, hmode, hstop⟩
  | frame p =>
    obtain ⟨e, he⟩ | ⟨-, hmode, hchannels, hlength, -⟩ := frameWith_cases referenceConfig p s
    · exact .inl ⟨_, he⟩
    · rw [exec_frame_accepted hmode hchannels hlength]
      obtain ⟨-, -, hcur, -⟩ := flagWidth_frame s
      exact (present_cases binary64 _ (flagWidth s)).imp_right fun hstop =>
        ⟨.inr ⟨p, rfl⟩, hmode, hcur ▸ hstop⟩

end Sys2Proof.Machine

/-! PROOFS. The safe bound of R168 (41_resampler.md R93): below 2^32 two neighbouring binary64 values are at most
2^-21 apart, so adding a ratio of at least that always moves the cursor. -/

namespace Sys2Proof.Machine

/-- Settles O37, by evaluating the two sums. -/
theorem smallestRatioStallsAtTwoToThe22 : Obligations.SmallestRatioStallsAtTwoToThe22 :=
  ⟨by decide +kernel, by decide +kernel⟩

/-- A value below 2^32 has a place at which the spacing of binary64 is at most 2^-21. -/
theorem place_le_of_scaled_lt {m drop : Nat} (hnormal : drop ≠ 0 → 2 ^ 52 ≤ m)
    (hbelow : m * 2 ^ drop < 2 ^ 32 * f64Unit) : drop ≤ 1053 ∧ 2 ^ drop * 2 ^ 21 ≤ f64Unit := by
  obtain ⟨n, hn⟩ : ∃ n, n = 1074 := ⟨_, rfl⟩
  rw [f64Unit_eq_pow n hn] at hbelow ⊢
  have hdrop : drop + 21 ≤ n := by
    rcases Nat.eq_zero_or_pos drop with hzero | hpos
    · omega
    · have hplaces : 2 ^ (52 + drop) < 2 ^ (32 + n) := by
        rw [Nat.pow_add, Nat.pow_add]
        exact (Nat.mul_le_mul_right _ (hnormal hpos.ne')).trans_lt hbelow
      have := (Nat.pow_lt_pow_iff_right (by omega)).1 hplaces
      omega
  rw [← Nat.pow_add]
  exact ⟨by omega, Nat.pow_le_pow_right two_pos hdrop⟩

/-- Below 2^32 the next pattern is at most 2^-21 away, so a sum with at least 2^-21 reaches it. -/
theorem toNat_lt_f64Add {a b : F64} (ha : f64Real a = true) (hb : f64Real b = true)
    (hbelow : f64Scaled a < 2 ^ 32 * f64Unit) (hstep : f64Unit ≤ f64Scaled b * 2 ^ 21) :
    a.toNat < (f64Add a b).toNat := by
  obtain ⟨drop, m, hpattern, hm, hnormal, hvalue⟩ := f64_parts a
  obtain ⟨hdrop, hspacing⟩ := place_le_of_scaled_lt hnormal (hvalue ▸ hbelow)
  obtain ⟨next, hnext, hnextValue⟩ := exists_toNat_eq (drop := drop) (m := m + 1) (by omega) hm
    fun hpos => (hnormal hpos).trans m.le_succ
  have hnextReal : f64Real next = true := decide_eq_true (by rw [hnext, f64Infinity]; omega)
  have hreach : f64Scaled next * 1 ≤ f64Scaled a + f64Scaled b := by
    rw [hnextValue, hvalue, mul_one, Nat.succ_mul]
    exact Nat.add_le_add_left (Nat.le_of_mul_le_mul_right (hspacing.trans hstep) (Nat.two_pow_pos 21)) _
  calc a.toNat < next.toNat := by omega
    _ ≤ (f64Add a b).toNat := f64Add_eq_round ha hb ▸ le_f64Round _ 1 next one_pos hnextReal hreach

/-- An up-sampling factor of at most 2^21 gives a ratio of at least 2^-21, which binary64 holds exactly. -/
theorem f64Unit_le_srcRatio {r : ConfigRegs} (htgt : r.tgtRate ≠ 0)
    (hfactor : r.tgtRate.toNat ≤ 2 ^ 21 * r.srcRate.toNat) :
    f64Unit ≤ f64Scaled (srcRatio binary64 r) * 2 ^ 21 := by
  obtain ⟨n, hn⟩ : ∃ n, n = 1053 := ⟨_, rfl⟩
  have hunit : f64Unit = 2 ^ n * 2 ^ 21 := by rw [← Nat.pow_add, f64Unit_eq_pow (n + 21) (by omega)]
  obtain ⟨least, hreal, hvalue⟩ := exists_f64Scaled_eq (m := 1) (drop := n) (by omega) (by omega)
  rw [one_mul] at hvalue
  have hpos : 0 < r.tgtRate.toNat := by bv_omega
  have hquotient : f64Scaled least * (r.tgtRate.toNat * f64Unit) ≤ r.srcRate.toNat * f64Unit * f64Unit := by
    rw [hvalue, ← Nat.mul_assoc]
    refine Nat.mul_le_mul_right _ ?_
    calc 2 ^ n * r.tgtRate.toNat ≤ 2 ^ n * (2 ^ 21 * r.srcRate.toNat) := Nat.mul_le_mul_left _ hfactor
      _ = r.srcRate.toNat * f64Unit := by rw [hunit, ← Nat.mul_assoc, Nat.mul_comm]
  have hleast : least.toNat ≤ (srcRatio binary64 r).toNat :=
    srcRatio_eq_round htgt ▸ le_f64Round _ _ least (Nat.mul_pos hpos f64Unit_pos) hreal hquotient
  rw [hunit, ← hvalue]
  exact Nat.mul_le_mul_right _ (f64Scaled_mono _ _ hleast)

section safeBound
variable {s : State} (h : Inv s) (hmode : s.status.mode = .run) (hn : s.cur.n < 2 ^ 32)
  (hfactor : s.regs.tgtRate.toNat ≤ 2 ^ 21 * s.regs.srcRate.toNat)
include h hmode hn hfactor

theorem Inv.idx_lt_fadd (hon : f64Floor s.cur.idx = s.cur.n) :
    s.cur.idx.toNat < (f64Add s.cur.idx s.cur.ratio).toNat := by
  obtain ⟨-, htgt⟩ := h.rates hmode
  have hbelow : f64Scaled s.cur.idx < 2 ^ 32 * f64Unit := by
    rwa [← hon, f64Floor_eq_div h.cursorReal, Nat.div_lt_iff_lt_mul f64Unit_pos] at hn
  exact toNat_lt_f64Add h.cursorReal h.ratioReal hbelow (h.ratio hmode ▸ f64Unit_le_srcRatio htgt hfactor)

/-- While the cursor stands on the index, every addition takes it to a higher pattern. -/
theorem Inv.add_le_cursorAfter {k : Nat}
    (hon : ∀ j, j < k → f64Floor (cursorAfter binary64 s.cur.ratio j s.cur.idx) = s.cur.n) :
    s.cur.idx.toNat + k ≤ (cursorAfter binary64 s.cur.ratio k s.cur.idx).toNat := by
  induction k generalizing s with
  | zero => exact le_rfl
  | succ k ih =>
    have hfirst : f64Floor s.cur.idx = s.cur.n := hon 0 k.succ_pos
    have hrises := h.idx_lt_fadd hmode hn hfactor hfirst
    have hrest : (f64Add s.cur.idx s.cur.ratio).toNat + k ≤
        (cursorAfter binary64 s.cur.ratio (k + 1) s.cur.idx).toNat :=
      ih (h.srcTurn 0 hmode hfirst) hmode hn hfactor fun j hj => hon (j + 1) (Nat.succ_lt_succ hj)
    omega

/-- There are 2^64 patterns, so the cursor does not stand on the index for ever. -/
theorem Inv.exists_cursorLeaves : ∃ k, CursorLeaves binary64 s k := by
  refine exists_cursorLeaves_iff.2 fun hon => ?_
  have hclimbs := h.add_le_cursorAfter hmode hn hfactor (k := 2 ^ 64) fun j _ => hon j
  have hpattern := (cursorAfter binary64 s.cur.ratio (2 ^ 64) s.cur.idx).isLt
  omega

theorem Inv.exists_present_eq_next (x : Int) : ∃ t, present binary64 x s = .next t := by
  have hlimit : s.cur.n + 1 < runLimit := by rw [runLimit]; omega
  by_cases hrates : s.regs.srcRate = s.regs.tgtRate
  · exact ⟨_, present_of_equal_rates binary64 x hrates hlimit⟩
  · obtain ⟨k, hleaves⟩ := h.exists_cursorLeaves hmode hn hfactor
    exact ⟨_, present_of_cursorLeaves hrates hlimit hleaves⟩

end safeBound

theorem Accepted.sample_mode {hasSF : Bool} {b : Byte} {s : State} (h : Accepted hasSF (.sample b) s) :
    s.status.mode = .run := by
  cases hmode : s.status.mode with
  | idle => exact absurd ⟨rfl, hmode⟩ (h .mode)
  | run => rfl

/-- Settles O36: both commands present a Sample, FRAME after the width flag, which the bound does not read. -/
theorem noHangInsideTheSafeBound : Obligations.NoHangInsideTheSafeBound := by
  rintro s i (⟨b, rfl⟩ | ⟨p, rfl⟩) h haccepted hn hfactor
  · have hmode := haccepted.sample_mode
    rw [exec_sample_of_run b hmode]
    exact h.exists_present_eq_next hmode hn hfactor b.toInt
  · obtain ⟨hmode, -⟩ := haccepted.frame_checks
    obtain ⟨-, -, hcur, hregs, hflag, -⟩ := flagWidth_frame s
    rw [exec_frame_of_accepted haccepted]
    exact h.flagWidth.exists_present_eq_next (hflag.trans hmode) (hcur.symm ▸ hn) (hregs.symm ▸ hfactor) _

end Sys2Proof.Machine
